-- ==== Sys2Proof/Word.lean ====
section
/-! DEFINITION. The word types of the engine (00_scope.md R10 to R12): bit 0 is the least significant bit of each. -/

namespace Sys2Proof

/-- The block, and a round key (00_scope.md R10: 64 bits each). -/
abbrev Block := BitVec 64
abbrev RoundKey := BitVec 64

/-- The master key and the key register (00_scope.md R10: 80 bits). -/
abbrev Key := BitVec 80

/-- The input and output of one S-box (00_scope.md R10: 4 bits). -/
abbrev Nibble := BitVec 4

/-- The sequencing counter, and the index of a round key (10_state.md R29, 20_memory.md R51: 5 bits). -/
abbrev Counter := BitVec 5

/-- The opcode field (00_scope.md R11: OP_BITS = 2). -/
abbrev Opcode := BitVec 2

/-- The packed command word (00_scope.md R11: CMD_BITS = 146). -/
abbrev Command := BitVec 146

/-- The error code (00_scope.md R11: ERR_CODE_BITS = 2). -/
abbrev ErrCode := BitVec 2

/-- A byte of a host buffer (20_memory.md R55); nothing inside the engine is byte-addressed (R54). -/
abbrev Byte := BitVec 8

/-- The round-key file: 32 entries of 64 bits (20_memory.md R51). -/
abbrev RoundKeyFile := Vector RoundKey 32

end Sys2Proof
end

