-- ==== Sys2Proof/Config.lean ====
section
/-! DEFINITION. The fixed parameters of the engine (00_scope.md R3, R10, R11). The widths are the types of Word.lean;
the numbers the rules of sequencing use stand here. -/

namespace Sys2Proof.Config

/-- The name of the command interface (00_scope.md R3; 92 D32). -/
def interfaceName : String := "PRESENT80-CORE"

/-- NUM_SP_ROUNDS (00_scope.md R10; 90_conflicts.md C1). -/
def numRounds : Nat := 31

/-- KEY_ROTATE: left by 61 (00_scope.md R10). -/
def keyRotate : Nat := 61

/-- LAT of the reference micro-architecture (43_orchestrator.md R183), the one the step function follows.
LAT itself is open (00_scope.md R11, 70_reset_and_hazards.md R245): the transaction machine of
Machine/Transaction.lean takes it as an argument. DESIGN CHOICE, log entry 1; unsafe if a claim about a particular
cycle is applied to another implementation. -/
def referenceLat : Nat := 63

/-- Error codes (10_state.md R36, 60_exceptions.md R203). -/
def errNone : ErrCode := 0
def errIllegalOp : ErrCode := 1

/-- Opcode values (30_encoding.md R72). -/
def opEnc : Opcode := 0b00#2
def opDec : Opcode := 0b01#2
def opRsv2 : Opcode := 0b10#2
def opRsv3 : Opcode := 0b11#2

end Sys2Proof.Config
end

