-- ==== Sys2Proof/Syntax.lean ====
section
/-! DEFINITION. The commands: one constructor per row of spec/opcode_table.json (30_encoding.md R70 to R72).
A command carries both operands by value; the reserved rows keep their key and block fields, which the engine ignores
(R76), so that a command word and its command determine each other. -/

namespace Sys2Proof

inductive Instr where
  /-- EncryptBlock (43_orchestrator.md R170). -/
  | enc (key : Key) (block : Block)
  /-- DecryptBlock (43_orchestrator.md R171). -/
  | dec (key : Key) (block : Block)
  /-- Reserved opcode 0b10 (60_exceptions.md R201). -/
  | rsv2 (key : Key) (block : Block)
  /-- Reserved opcode 0b11 (60_exceptions.md R201). -/
  | rsv3 (key : Key) (block : Block)
deriving DecidableEq, Repr

/-- The opcode field of a command (30_encoding.md R72). -/
def Instr.opcode : Instr → Opcode
  | .enc _ _ => Config.opEnc
  | .dec _ _ => Config.opDec
  | .rsv2 _ _ => Config.opRsv2
  | .rsv3 _ _ => Config.opRsv3

/-- The key field of a command (30_encoding.md R71). -/
def Instr.key : Instr → Key
  | .enc k _ => k
  | .dec k _ => k
  | .rsv2 k _ => k
  | .rsv3 k _ => k

/-- The block field of a command (30_encoding.md R71). -/
def Instr.block : Instr → Block
  | .enc _ b => b
  | .dec _ b => b
  | .rsv2 _ b => b
  | .rsv3 _ b => b

/-- A call as a byte-buffer host makes it (20_memory.md R55): the opcode, the bytes of the key buffer and of the block
buffer. The buffers may have any length here; HostCall.wf says which calls a wrapper may pass to the engine. -/
structure HostCall where
  op : Opcode
  key : List Byte
  block : List Byte
deriving DecidableEq, Repr

end Sys2Proof
end

