-- ==== Sys2Proof/WellFormed.lean ====
section
/-! DEFINITION. Which commands and which host calls are well formed. -/

namespace Sys2Proof

/-- Every key and every block is legal (30_encoding.md R74), and a reserved opcode is still a command the engine
accepts (R76): no typed command is ill formed. -/
def Instr.wf : Instr → Bool
  | .enc _ _ => true
  | .dec _ _ => true
  | .rsv2 _ _ => true
  | .rsv3 _ _ => true

/-- The source's precondition on buffer lengths: a key of 10 bytes and a block of 8 bytes (00_scope.md R9,
60_exceptions.md R202). The check belongs to the host wrapper; at the engine's ports a wrong length cannot be
presented. -/
def HostCall.wf (c : HostCall) : Bool :=
  c.key.length == 10 && c.block.length == 8

end Sys2Proof
end

