-- ==== Sys2Proof/Machine/State.lean ====
section
/-! DEFINITION. The state of the engine (10_state.md R22) as plain data, the ways a step can stop, and the state after
reset. -/

namespace Sys2Proof.Machine

/-- The control state (10_state.md R28). The 2-bit encoding 0b11 is reached by no rule after a reset edge, but a
register holds any value before the first one (70_reset_and_hazards.md R236), so it has a constructor; log entry 5. -/
inductive Fsm where
  | idle
  | keygen
  | rnd
  | unused
deriving DecidableEq, Repr

/-- The encoding of the control state (10_state.md R28). -/
def Fsm.code : Fsm → BitVec 2
  | .idle => 0b00#2
  | .keygen => 0b01#2
  | .rnd => 0b10#2
  | .unused => 0b11#2

/-- The latched operation `op_r` (10_state.md R30): 0 is ENC, 1 is DEC. -/
inductive Direction where
  | enc
  | dec
deriving DecidableEq, Repr

/-- The bit `op_r` holds (10_state.md R30). -/
def Direction.bit : Direction → BitVec 1
  | .enc => 0#1
  | .dec => 1#1

/-- What the host drives on the input ports in one clock cycle (10_state.md R23). -/
structure Ports where
  rst : Bool
  cmdValid : Bool
  cmdOp : Opcode
  keyIn : Key
  blockIn : Block
deriving DecidableEq, Repr

/-- The state. The first nine fields are the spec's (10_state.md R22); `inputs` is the model's own: what the host
drives on the ports in the coming clock cycles, the first entry in the cycle before the next rising edge (the ports are
not state of the engine, R42; log entry 3). -/
structure State where
  st : Block
  kreg : Key
  rk : RoundKeyFile
  fsm : Fsm
  ctr : Counter
  opR : Direction
  outValid : Bool
  err : Bool
  errCode : ErrCode
  inputs : List Ports
deriving DecidableEq, Repr

/-- Why a step is stuck. -/
inductive Fault where
  /-- Raised by the sequencer at an edge with `fsm == KEYGEN` and `ctr = 0`: no rule applies (43_orchestrator.md R177
  is for ctr 1 to 31, and 41_key_schedule.md R127 has no update with counter 0). Only a state no run reaches after a
  reset edge has it; log entry 6. Safe: the model stops where the hardware would go on. -/
  | keygenAtZero
deriving DecidableEq, Repr

/-- Why a step is refused. -/
inductive Refusal where
  /-- Raised by exec for an instruction that has no meaning yet; no instruction of this model is so. Safe. -/
  | notModelled (mnemonic : String)
  /-- Raised by an edge without reset in the control state 0b11, which 93_implementation_defined.md entry 3 treats as
  "refuse" (impossible after a reset edge); log entry 5. Safe: the model stops where the hardware would go on. -/
  | fsmUnused
deriving DecidableEq, Repr

/-- The engine after a reset edge (10_state.md R41), with no input named yet. The control registers have the spec's
values. `ST`, `KREG` and `RK` are unspecified by the spec; 0 is the model's DESIGN CHOICE, log entry 2, unsafe. -/
def State.reset : State where
  st := 0
  kreg := 0
  rk := Vector.replicate 32 0
  fsm := .idle
  ctr := 0#5
  opR := .enc
  outValid := false
  err := false
  errCode := Config.errNone
  inputs := []

end Sys2Proof.Machine
end

