-- ==== Sys2Proof/Machine/SBox.lean ====
section
/-! DEFINITION. The substitution tables and layers (40_sbox.md). -/

namespace Sys2Proof.Machine

/-- SBOX (40_sbox.md R100). -/
def sboxTable : Vector Nibble 16 :=
  #v[0xC, 0x5, 0x6, 0xB, 0x9, 0x0, 0xA, 0xD, 0x3, 0xE, 0xF, 0x8, 0x4, 0x7, 0x1, 0x2]

/-- SBOX_INV (40_sbox.md R101). -/
def sboxInvTable : Vector Nibble 16 :=
  #v[0x5, 0xE, 0xF, 0x8, 0xC, 0x1, 0x2, 0xD, 0xB, 0x4, 0x6, 0x3, 0x0, 0x7, 0x9, 0xA]

/-- `sbox4` (40_sbox.md R103). -/
def sbox4 (x : Nibble) : Nibble := sboxTable[x.toNat]'x.isLt

/-- `sbox4_inv` (40_sbox.md R104). -/
def sbox4Inv (y : Nibble) : Nibble := sboxInvTable[y.toNat]'y.isLt

/-- `nib(v, j)`: nibble j of a block, bits 4j+3..4j (00_scope.md R13, 40_sbox.md R105). -/
def nib (v : Block) (j : Nat) : Nibble := v.extractLsb' (4 * j) 4

/-- One lane-wise substitution: `for j in 0..15: result[4j+3:4j] = f(v[4j+3:4j])` (40_sbox.md R105). -/
def mapNibbles (f : Nibble → Nibble) (v : Block) : Block :=
  (List.range 16).foldl (fun r j => r ||| ((f (nib v j)).setWidth 64 <<< (4 * j))) 0

/-- `sLayer` (40_sbox.md R105). -/
def sLayer (v : Block) : Block := mapNibbles sbox4 v

/-- `sLayerInv` (40_sbox.md R106). -/
def sLayerInv (v : Block) : Block := mapNibbles sbox4Inv v

end Sys2Proof.Machine
end

