-- ==== Sys2Proof/Machine/KeySchedule.lean ====
section
/-! DEFINITION. The key-schedule generator and the accesses to the round-key file (41_key_schedule.md,
20_memory.md R51). -/

namespace Sys2Proof.Machine

/-- `reg[79:16]` (41_key_schedule.md R121). -/
def roundKeyOf (reg : Key) : RoundKey := reg.extractLsb' 16 64

/-- Step b: the top nibble replaced through the forward S-box, the other 76 bits unchanged
(41_key_schedule.md R122, R124). -/
def substituteTop (a : Key) : Key := sbox4 (a.extractLsb' 76 4) ++ a.extractLsb' 0 76

/-- Step c: the counter XORed into bits 19..15, `i[0]` at bit 15 (41_key_schedule.md R122). -/
def xorCounter (b : Key) (i : Counter) : Key := b ^^^ (i ++ 0#15).setWidth 80

/-- `ksUpdate(reg, i)`: rotate, substitute, XOR the counter (41_key_schedule.md R122, R125). -/
def ksUpdate (reg : Key) (i : Counter) : Key :=
  xorCounter (substituteTop (reg.rotateLeft Config.keyRotate)) i

/-- The key register after i updates, with counters 1 to i (41_key_schedule.md R120, R126). -/
def keyRegAfter (K : Key) : Nat → Key
  | 0 => K
  | i + 1 => ksUpdate (keyRegAfter K i) (BitVec.ofNat 5 (i + 1))

/-- The loop of 41_key_schedule.md R120 from index i on, n times: each turn updates the register and takes its round
key. -/
def scheduleLoop (reg : Key) (i : Nat) : Nat → List RoundKey
  | 0 => []
  | n + 1 =>
    roundKeyOf (ksUpdate reg (BitVec.ofNat 5 i)) :: scheduleLoop (ksUpdate reg (BitVec.ofNat 5 i)) (i + 1) n

theorem scheduleLoop_length (reg : Key) (i n : Nat) : (scheduleLoop reg i n).length = n := by
  induction n generalizing reg i with
  | zero => rfl
  | succ n ih => simp [scheduleLoop, ih]

/-- `keySchedule(K)`: the 32 round keys in order (41_key_schedule.md R120). -/
def keySchedule (K : Key) : RoundKeyFile :=
  ⟨⟨roundKeyOf K :: scheduleLoop K 1 31⟩, by simp [scheduleLoop_length]⟩

/-- `RK[i]`, a read of the round-key file (00_scope.md R13, 20_memory.md R51). -/
def readRk (rk : RoundKeyFile) (i : Counter) : RoundKey := rk[i.toNat]'i.isLt

/-- `RK[i] <- v`, a write of the round-key file (00_scope.md R13, 20_memory.md R51). -/
def writeRk (rk : RoundKeyFile) (i : Counter) (v : RoundKey) : RoundKeyFile := rk.set i.toNat v i.isLt

end Sys2Proof.Machine
end

