-- ==== Sys2Proof/Machine/Permutation.lean ====
section
/-! DEFINITION. The bit permutation and its inverse (42_permutation.md). -/

namespace Sys2Proof.Machine

/-- The forward position map P (42_permutation.md R140). -/
def permP (i : Nat) : Nat := if i = 63 then 63 else 16 * i % 63

/-- The inverse position map, the set-inverse of P: the position whose image is j (42_permutation.md R142). -/
def permPInv (j : Nat) : Nat := ((List.range 64).find? (fun i => permP i == j)).getD 0

/-- A block written bit by bit: `for i in 0..63: result[p(i)] = bit(i)`. -/
def scatterBits (p : Nat → Nat) (bit : Nat → Bool) : Block :=
  (List.range 64).foldl (fun r i => r ||| ((BitVec.ofBool (bit i)).setWidth 64 <<< p i)) 0

/-- `pLayer`: `result[P(i)] = v[i]` (42_permutation.md R145). -/
def pLayer (v : Block) : Block := scatterBits permP (fun i => v.getLsbD i)

/-- `pLayerInv`: `result[i] = v[P(i)]` (42_permutation.md R146). -/
def pLayerInv (v : Block) : Block := scatterBits id (fun i => v.getLsbD (permP i))

end Sys2Proof.Machine
end

