-- ==== Sys2Proof/Machine/Cipher.lean ====
section
/-! DEFINITION. The round functions and the cipher (43_orchestrator.md section 1). -/

namespace Sys2Proof.Machine

/-- `addRoundKey` (43_orchestrator.md R160). -/
def addRoundKey (v : Block) (k : RoundKey) : Block := v ^^^ k

/-- `encRound` (43_orchestrator.md R161). -/
def encRound (v : Block) (k : RoundKey) : Block := pLayer (sLayer (addRoundKey v k))

/-- `decRound` (43_orchestrator.md R162). -/
def decRound (v : Block) (k : RoundKey) : Block := addRoundKey (sLayerInv (pLayerInv v)) k

/-- `v` after n iterations of the loop of `Encrypt`, r = 0 upward (43_orchestrator.md R163). -/
def encRounds (rk : RoundKeyFile) (v : Block) : Nat → Block
  | 0 => v
  | n + 1 => encRound (encRounds rk v n) (readRk rk (BitVec.ofNat 5 n))

/-- `v` after n iterations of the loop of `Decrypt`, r = 30 downward (43_orchestrator.md R164). -/
def decRounds (rk : RoundKeyFile) (v : Block) : Nat → Block
  | 0 => v
  | n + 1 => decRound (decRounds rk v n) (readRk rk (BitVec.ofNat 5 (30 - n)))

/-- `Encrypt(B, K)`: 31 rounds, then post-whitening (43_orchestrator.md R163). -/
def encrypt (B : Block) (K : Key) : Block :=
  addRoundKey (encRounds (keySchedule K) B Config.numRounds) (readRk (keySchedule K) 31#5)

/-- `Decrypt(C, K)`: whitening undone, then 31 inverse rounds (43_orchestrator.md R164). -/
def decrypt (C : Block) (K : Key) : Block :=
  decRounds (keySchedule K) (addRoundKey C (readRk (keySchedule K) 31#5)) Config.numRounds

/-- The result a direction gives for a block and a key (43_orchestrator.md R170, R171). -/
def cipher (d : Direction) (B : Block) (K : Key) : Block :=
  match d with
  | .enc => encrypt B K
  | .dec => decrypt B K

end Sys2Proof.Machine
end

