-- ==== Sys2Proof/Machine/Flags.lean ====
section
/-! DEFINITION. Status flags and output ports (10_state.md R24, R25, R32 to R36). -/

namespace Sys2Proof.Machine

/-- `out_valid <- 1` and `out_valid <- 0` (10_state.md R33). -/
def State.setOutValid (s : State) : State := { s with outValid := true }
def State.clearOutValid (s : State) : State := { s with outValid := false }

/-- `err <- 1` together with the error's code (10_state.md R35, R36). -/
def State.setErr (s : State) (code : ErrCode) : State := { s with err := true, errCode := code }

/-- `err <- 0; err_code <- NONE` (10_state.md R35, R36). -/
def State.clearErr (s : State) : State := { s with err := false, errCode := Config.errNone }

/-- `busy` (10_state.md R24, R32). -/
def State.busy (s : State) : Bool := s.fsm != .idle

/-- `cmd_ready`, in a cycle with the given `rst` (10_state.md R24). -/
def State.cmdReady (s : State) (rst : Bool) : Bool := s.fsm == .idle && !rst

/-- `block_out` (10_state.md R24, R34). -/
def State.blockOut (s : State) : Block := if s.outValid then s.st else 0

/-- All output ports in a cycle with the given `rst` (10_state.md R24). -/
structure Outputs where
  cmdReady : Bool
  busy : Bool
  outValid : Bool
  blockOut : Block
  err : Bool
  errCode : ErrCode
deriving DecidableEq, Repr

/-- The output ports (10_state.md R24). -/
def State.outputs (s : State) (rst : Bool) : Outputs where
  cmdReady := s.cmdReady rst
  busy := s.busy
  outValid := s.outValid
  blockOut := s.blockOut
  err := s.err
  errCode := s.errCode

/-- `STATUS[5:0] = {err_code, err, out_valid, busy, cmd_ready}` (10_state.md R25). -/
def State.status (s : State) (rst : Bool) : BitVec 6 :=
  s.errCode ++ BitVec.ofBool s.err ++ BitVec.ofBool s.outValid ++ BitVec.ofBool s.busy ++
    BitVec.ofBool (s.cmdReady rst)

end Sys2Proof.Machine
end

