-- ==== Sys2Proof/Machine/Ops.lean ====
section
/-! DEFINITION. The register transfers of one rising edge, each as a whole (00_scope.md R14: every right-hand side
reads the values before the edge). -/

namespace Sys2Proof.Machine

/-- A reset edge: the control registers take their reset values, the data registers keep theirs
(70_reset_and_hazards.md R230, R233). -/
def resetEdge (s : State) : State :=
  { s.clearErr.clearOutValid with fsm := .idle, ctr := 0#5, opR := .enc }

/-- IDLE, accepting a legal command (43_orchestrator.md R175). -/
def acceptLegal (d : Direction) (K : Key) (B : Block) (s : State) : State :=
  { s.clearErr.clearOutValid with
    kreg := K, rk := writeRk s.rk 0#5 (roundKeyOf K), st := B, opR := d, ctr := 1#5, fsm := .keygen }

/-- THE one exception of the engine, ILLEGAL_OP (60_exceptions.md R201): status only. It saves nothing, changes no mode
and transfers control nowhere (R206), so there is no return from it (R207); acceptLegal and resetEdge clear it. -/
def raiseIllegalOp (s : State) : State := (s.setErr Config.errIllegalOp).clearOutValid

/-- IDLE, no command: no register changes (43_orchestrator.md R176). -/
def hold (s : State) : State := s

/-- The KEYGEN step (43_orchestrator.md R177). -/
def keygenStep (s : State) : State :=
  if s.ctr = 31#5 then
    { s with
      kreg := ksUpdate s.kreg s.ctr
      rk := writeRk s.rk s.ctr (roundKeyOf (ksUpdate s.kreg s.ctr))
      fsm := .rnd
      ctr := match s.opR with
        | .enc => 0#5
        | .dec => 31#5 }
  else
    { s with
      kreg := ksUpdate s.kreg s.ctr
      rk := writeRk s.rk s.ctr (roundKeyOf (ksUpdate s.kreg s.ctr))
      ctr := s.ctr + 1#5 }

/-- What the completing edge writes besides ST (43_orchestrator.md R182). -/
def complete (s : State) : State := { s.setOutValid with fsm := .idle, ctr := 0#5 }

/-- The RND step of an encryption: a round, or the post-whitening with which it completes
(43_orchestrator.md R178, R179). -/
def encStep (s : State) : State :=
  if s.ctr = 31#5 then complete { s with st := addRoundKey s.st (readRk s.rk 31#5) }
  else { s with st := encRound s.st (readRk s.rk s.ctr), ctr := s.ctr + 1#5 }

/-- The RND step of a decryption: the un-whitening, or a round; round 0 completes it
(43_orchestrator.md R180, R181). -/
def decStep (s : State) : State :=
  if s.ctr = 31#5 then { s with st := addRoundKey s.st (readRk s.rk 31#5), ctr := 30#5 }
  else if s.ctr = 0#5 then complete { s with st := decRound s.st (readRk s.rk s.ctr) }
  else { s with st := decRound s.st (readRk s.rk s.ctr), ctr := s.ctr - 1#5 }

/-- The RND step (43_orchestrator.md R178 to R182). -/
def rndStep (s : State) : State :=
  match s.opR with
  | .enc => encStep s
  | .dec => decStep s

/-- One rising edge with `rst = 0`: in IDLE the edge does what `accept` says; outside IDLE no port but `rst` is sampled
and the edge is the running operation's own (43_orchestrator.md R186, 60_exceptions.md R205). -/
def edgeWith (accept : State → State) (s : State) : Host.Outcome State Fault Refusal :=
  match s.fsm with
  | .idle => .next (accept s)
  | .keygen => if s.ctr = 0#5 then .fault .keygenAtZero else .next (keygenStep s)
  | .rnd => .next (rndStep s)
  | .unused => .refused .fsmUnused

/-- Go on from a next state; a fault or a refusal stays. -/
def andThen (o : Host.Outcome State Fault Refusal) (f : State → Host.Outcome State Fault Refusal) :
    Host.Outcome State Fault Refusal :=
  match o with
  | .next s => f s
  | .fault r => .fault r
  | .refused r => .refused r

end Sys2Proof.Machine
end

