-- ==== Sys2Proof/Machine/Commands.lean ====
section
/-! DEFINITION. The meaning of each command: one rising edge with `rst = 0` at which the host presents it. In IDLE the
edge is the command's accepting edge; outside IDLE the command is not taken and the edge is the running operation's own
(10_state.md R31, 43_orchestrator.md R186). The rest of a legal command is the engine's own sequencing, one edge a step
(log entry 7). -/

namespace Sys2Proof.Machine

/-- ENC (43_orchestrator.md R170, R175). -/
def execEnc (K : Key) (B : Block) (s : State) : Host.Outcome State Fault Refusal :=
  edgeWith (acceptLegal .enc K B) s

/-- DEC (43_orchestrator.md R171, R175). -/
def execDec (K : Key) (C : Block) (s : State) : Host.Outcome State Fault Refusal :=
  edgeWith (acceptLegal .dec K C) s

/-- RSV2: ILLEGAL_OP; the key and block fields are ignored (60_exceptions.md R201, 30_encoding.md R76). -/
def execRsv2 (s : State) : Host.Outcome State Fault Refusal :=
  edgeWith raiseIllegalOp s

/-- RSV3: ILLEGAL_OP; the key and block fields are ignored (60_exceptions.md R201, 30_encoding.md R76). -/
def execRsv3 (s : State) : Host.Outcome State Fault Refusal :=
  edgeWith raiseIllegalOp s

end Sys2Proof.Machine
end

