-- ==== Sys2Proof/Machine/Dispatch.lean ====
section
/-! DEFINITION. Which meaning each command has. -/

namespace Sys2Proof.Machine

def exec (i : Instr) (s : State) : Host.Outcome State Fault Refusal :=
  match i with
  | .enc key block => Sys2Proof.Machine.execEnc key block s
  | .dec key block => Sys2Proof.Machine.execDec key block s
  | .rsv2 _ _ => Sys2Proof.Machine.execRsv2 s
  | .rsv3 _ _ => Sys2Proof.Machine.execRsv3 s

end Sys2Proof.Machine
end

