-- ==== Sys2Proof/Decode.lean ====
section
/-! DEFINITION. Command words to commands and back (30_encoding.md). The decoder is total on all 2^146 words (R75);
the forms above it reject by name what is no 146-bit word. -/

namespace Sys2Proof

/-- `{op, key, block}` as one word (30_encoding.md R71): the opcode in bits 145..144, the key in 143..64, the block in
63..0. -/
def packCommand (op : Opcode) (key : Key) (block : Block) : Command :=
  op ++ key ++ block

/-- The fields of a command word (30_encoding.md R71, R73). -/
def commandOp (w : Command) : Opcode := w.extractLsb' 144 2
def commandKey (w : Command) : Key := w.extractLsb' 64 80
def commandBlock (w : Command) : Block := w.extractLsb' 0 64

/-- The command with a given opcode (30_encoding.md R72). -/
def commandOf (op : Opcode) (key : Key) (block : Block) : Instr :=
  if op = 0b00#2 then .enc key block
  else if op = 0b01#2 then .dec key block
  else if op = 0b10#2 then .rsv2 key block
  else .rsv3 key block

/-- The decoder (30_encoding.md R75). -/
def decode (w : Command) : Instr :=
  commandOf (commandOp w) (commandKey w) (commandBlock w)

/-- The command word of a command (30_encoding.md R71, R72). -/
def encode (i : Instr) : Command :=
  packCommand i.opcode i.key i.block

/-- Why something is no command word. -/
inductive DecodeError where
  /-- A value with a bit above bit 145 set: a command word has 146 bits (30_encoding.md R77). -/
  | bitsAboveWord
  /-- A key buffer that is not 10 bytes or a block buffer that is not 8 (00_scope.md R9). -/
  | wrongLength
  /-- An opcode byte above 3: the opcode has 2 bits (30_encoding.md R71). -/
  | opcodeByte
deriving DecidableEq, Repr

/-- The command a natural number stands for as a command word. -/
def decodeNat (w : Nat) : Except DecodeError Instr :=
  if w < 2 ^ 146 then .ok (decode (BitVec.ofNat 146 w)) else .error .bitsAboveWord

/-- The table's reading of a word (bit 0 the least significant, 30_encoding.md R71): of w, the nbits bits the table
gives the row; the bits above them are 0. -/
def tableWord (nbits w : Nat) : Nat := w % 2 ^ nbits

/-- The instruction the decoder reads from a word numbered as spec/opcode_table.json numbers it. -/
def decodeTableWord (nbits w : Nat) : Option Instr :=
  (decodeNat (tableWord nbits w)).toOption

/-! Host bytes (20_memory.md R55): most significant byte first. -/

/-- The number a byte buffer stands for, its first byte the most significant. -/
def natOfBytes (bs : List Byte) : Nat :=
  bs.foldl (fun n b => n * 256 + b.toNat) 0

/-- The n bytes of a number, most significant first. -/
def bytesOfNat : Nat → Nat → List Byte
  | 0, _ => []
  | n + 1, x => BitVec.ofNat 8 (x / 256 ^ n) :: bytesOfNat n x

/-- `key = {k[0], ..., k[9]}` and `block = {b[0], ..., b[7]}` (20_memory.md R55). -/
def keyOfBytes (bs : List Byte) : Key := BitVec.ofNat 80 (natOfBytes bs)
def blockOfBytes (bs : List Byte) : Block := BitVec.ofNat 64 (natOfBytes bs)

/-- The host's buffers of a key, of a block and of a result: `b[j] = block_out[63-8j : 56-8j]` (20_memory.md R55). -/
def bytesOfKey (k : Key) : List Byte := bytesOfNat 10 k.toNat
def bytesOfBlock (b : Block) : List Byte := bytesOfNat 8 b.toNat

/-- What a byte-buffer wrapper passes to the engine: the command, or the named rejection before anything is changed
(00_scope.md R9, 60_exceptions.md R202). -/
def decodeCall (c : HostCall) : Except DecodeError Instr :=
  if c.wf then .ok (commandOf c.op (keyOfBytes c.key) (blockOfBytes c.block)) else .error .wrongLength

/-- The host call of a command. -/
def encodeCall (i : Instr) : HostCall :=
  { op := i.opcode, key := bytesOfKey i.key, block := bytesOfBlock i.block }

/-- A command as one buffer of 19 bytes: the opcode byte, the ten key bytes, the eight block bytes. The spec gives the
two buffers their byte order (20_memory.md R55) and the command word its 37 hex digits (30_encoding.md R71), but no
byte layout of a whole command: DESIGN CHOICE, log entry 8, safe (no rule of the engine uses it). -/
def decodeBytes : List Byte → Except DecodeError Instr
  | [] => .error .wrongLength
  | op :: rest =>
    if 3 < op.toNat then .error .opcodeByte
    else decodeCall { op := op.setWidth 2, key := rest.take 10, block := rest.drop 10 }

/-- The 19 bytes of a command. -/
def encodeBytes (i : Instr) : List Byte :=
  i.opcode.setWidth 8 :: (bytesOfKey i.key ++ bytesOfBlock i.block)

end Sys2Proof
end

