-- ==== Sys2Proof/Machine/Operands.lean ====
section
/-! DEFINITION. The input ports: how a command stands on them and which cycle's values an edge samples
(10_state.md R23, R31; 30_encoding.md R70, R71). -/

namespace Sys2Proof.Machine

/-- The command word on the ports (30_encoding.md R71). -/
def Ports.command (p : Ports) : Command := packCommand p.cmdOp p.keyIn p.blockIn

/-- The command on the ports (30_encoding.md R75). -/
def Ports.instr (p : Ports) : Instr := decode p.command

/-- Ports on which the host drives nothing: no reset and no command. The operand ports are then sampled by no rule. -/
def Ports.quiet : Ports := { rst := false, cmdValid := false, cmdOp := 0, keyIn := 0, blockIn := 0 }

/-- Ports with `rst = 1` (30_encoding.md R79). -/
def Ports.resetting : Ports := { Ports.quiet with rst := true }

/-- Ports on which a command word is presented, `cmd_valid = 1` and `rst = 0` (30_encoding.md R79). -/
def Ports.ofWord (w : Command) : Ports :=
  { rst := false, cmdValid := true, cmdOp := commandOp w, keyIn := commandKey w, blockIn := commandBlock w }

/-- Ports on which a command is presented. -/
def Ports.present (i : Instr) : Ports := Ports.ofWord (encode i)

/-- The ports in the cycle before the next rising edge: the first entry of `inputs`, or quiet ports where the list has
none. DESIGN CHOICE, log entry 3; unsafe (a claim over an empty list is a claim about a host that drives nothing). -/
def State.ports (s : State) : Ports := s.inputs.headD Ports.quiet

/-- The state with that cycle's ports taken off the list. -/
def State.nextCycle (s : State) : State := { s with inputs := s.inputs.tail }

/-- The state with p driven in the cycle before the next rising edge, in place of what stood there; the later cycles
are unchanged. -/
def State.drive (s : State) (p : Ports) : State := { s with inputs := p :: s.inputs.tail }

end Sys2Proof.Machine
end

