-- ==== Sys2Proof/Machine/Clock.lean ====
section
/-! DEFINITION. One rising edge of the clock, given the ports in the cycle before it. -/

namespace Sys2Proof.Machine

/-- The rising edge, in the priority order of 60_exceptions.md R205: reset; a presented command (taken in IDLE only);
otherwise hold in IDLE, or the running operation's step. -/
def clockEdge (p : Ports) (s : State) : Host.Outcome State Fault Refusal :=
  if p.rst then .next (resetEdge s)
  else if p.cmdValid then exec p.instr s
  else edgeWith hold s

end Sys2Proof.Machine
end

