-- ==== Sys2Proof/Machine/Step.lean ====
section
/-! DEFINITION. One step: one rising edge of `clk`, with the ports that the head of `inputs` gives. -/

namespace Sys2Proof.Machine

/-- One rising edge. The cycle's ports come off the list first, so that the edge's meaning leaves the coming cycles as
they are. -/
def step (s : State) : Host.Outcome State Fault Refusal := clockEdge s.ports s.nextCycle

/-- s with the command word w presented in the coming cycle, `cmd_valid = 1` and `rst = 0`; the later cycles and every
register are unchanged (log entry 4). -/
def State.withFetchWord (s : State) (nbits w : Nat) : State :=
  s.drive (Ports.ofWord (BitVec.ofNat 146 (tableWord nbits w)))

end Sys2Proof.Machine
end

