-- ==== Sys2Proof/Machine/Assembler.lean ====
section
/-! DEFINITION. The written form of a command (30_encoding.md R78):
mnemonic, then `key=0x` and 20 hex digits, a comma, `blk=0x` and 16 hex digits. What the spec leaves open of it (how many
spaces, the case of a digit, a comment) is log entry 14. -/

namespace Sys2Proof.Machine

/-- The mnemonics and their opcodes (30_encoding.md R72, R78). -/
def mnemonics : List (List Char × Opcode) :=
  [(['E', 'N', 'C'], 0b00#2), (['D', 'E', 'C'], 0b01#2), (['R', 'S', 'V', '2'], 0b10#2), (['R', 'S', 'V', '3'], 0b11#2)]

/-- The mnemonic of a command (30_encoding.md R78). -/
def mnemonicOf : Instr → List Char
  | .enc _ _ => ['E', 'N', 'C']
  | .dec _ _ => ['D', 'E', 'C']
  | .rsv2 _ _ => ['R', 'S', 'V', '2']
  | .rsv3 _ _ => ['R', 'S', 'V', '3']

/-- One hex digit of a number below 16. -/
def hexDigit (d : Nat) : Char := if d < 10 then Char.ofNat (48 + d) else Char.ofNat (55 + d)

/-- The n hex digits of a number, most significant first (00_scope.md R12). -/
def hexDigits : Nat → Nat → List Char
  | 0, _ => []
  | n + 1, x => hexDigit (x / 16 ^ n % 16) :: hexDigits n x

/-- The value of a hex digit, of either case. -/
def hexValue (c : Char) : Option Nat :=
  if 48 ≤ c.toNat ∧ c.toNat ≤ 57 then some (c.toNat - 48)
  else if 65 ≤ c.toNat ∧ c.toNat ≤ 70 then some (c.toNat - 55)
  else if 97 ≤ c.toNat ∧ c.toNat ≤ 102 then some (c.toNat - 87)
  else none

/-- n hex digits read off a text onto the number acc. -/
def readHex : Nat → Nat → List Char → Option (Nat × List Char)
  | 0, acc, cs => some (acc, cs)
  | _ + 1, _, [] => none
  | n + 1, acc, c :: cs => (hexValue c).bind fun d => readHex n (acc * 16 + d) cs

/-- A text after a given beginning. -/
def afterPrefix : List Char → List Char → Option (List Char)
  | [], cs => some cs
  | _ :: _, [] => none
  | p :: ps, c :: cs => if p = c then afterPrefix ps cs else none

/-- `key=0x` and `, blk=0x` (30_encoding.md R78). -/
def keyMark : List Char := ['k', 'e', 'y', '=', '0', 'x']
def blockMark : List Char := [',', ' ', 'b', 'l', 'k', '=', '0', 'x']

/-- The operands of a line, after its mnemonic: at least one space, the key, the block, and then nothing but a
comment from `;` on. -/
def readOperands (op : Opcode) (cs : List Char) : Option Instr :=
  (afterPrefix [' '] cs).bind fun cs =>
  (afterPrefix keyMark (cs.dropWhile (· = ' '))).bind fun cs =>
  (readHex 20 0 cs).bind fun (k, cs) =>
  (afterPrefix blockMark cs).bind fun cs =>
  (readHex 16 0 cs).bind fun (b, cs) =>
  if (cs.dropWhile (· = ' ')).head?.all (· = ';') then some (commandOf op (BitVec.ofNat 80 k) (BitVec.ofNat 64 b)) else none

/-- The command a line stands for (30_encoding.md R78). -/
def assemble (cs : List Char) : Option Instr :=
  mnemonics.findSome? fun (m, op) => (afterPrefix m cs).bind (readOperands op)

/-- The line of a command (30_encoding.md R78). -/
def assemblyLine (i : Instr) : List Char :=
  mnemonicOf i ++ [' '] ++ keyMark ++ hexDigits 20 i.key.toNat ++ blockMark ++ hexDigits 16 i.block.toNat

end Sys2Proof.Machine
end

