-- ==== Sys2Proof/Machine/HostActions.lean ====
section
/-! DEFINITION. The host's actions on the ports (30_encoding.md R79). They drive whole clock cycles of ports; they are
not commands and have no encoding. -/

namespace Sys2Proof.Machine

/-- What READ samples (30_encoding.md R79). -/
structure Reading where
  blockOut : Block
  outValid : Bool
  err : Bool
  errCode : ErrCode
deriving DecidableEq, Repr

/-- READ: the outputs, with no effect on the engine (30_encoding.md R79, 20_memory.md R60). -/
def State.read (s : State) : Reading where
  blockOut := s.blockOut
  outValid := s.outValid
  err := s.err
  errCode := s.errCode

/-- RESET: one rising edge with `rst = 1` (30_encoding.md R79). -/
def hostReset (s : State) : Host.Outcome State Fault Refusal := clockEdge Ports.resetting s

/-- ISSUE: the command is driven until an accepting edge takes it, for at most n edges (30_encoding.md R79). -/
def issueFor (i : Instr) : Nat → State → Host.Outcome State Fault Refusal
  | 0, s => .next s
  | n + 1, s =>
    if s.cmdReady false then clockEdge (Ports.present i) s
    else andThen (clockEdge (Ports.present i) s) (issueFor i n)

/-- WAIT: quiet cycles until `cmd_ready = 1`, at most n of them (30_encoding.md R79). -/
def waitFor : Nat → State → Host.Outcome State Fault Refusal
  | 0, s => .next s
  | n + 1, s =>
    if s.cmdReady false then .next s
    else andThen (clockEdge Ports.quiet s) (waitFor n)

/-- The most edges ISSUE and WAIT take here: one more than LAT, so that neither bound is ever reached in a state after
a reset edge (log entry 10, safe). -/
def hostPatience : Nat := Config.referenceLat + 1

/-- The actions (30_encoding.md R79). -/
inductive HostAction where
  | reset
  | issue (i : Instr)
  | wait
  | read
deriving DecidableEq, Repr

/-- What an action does to the engine (30_encoding.md R79). -/
def HostAction.act : HostAction → State → Host.Outcome State Fault Refusal
  | .reset, s => hostReset s
  | .issue i, s => issueFor i hostPatience s
  | .wait, s => waitFor hostPatience s
  | .read, s => .next s

/-- RUN: ISSUE, then WAIT, then READ, which leaves the state as it is (30_encoding.md R79). -/
def hostRun (i : Instr) (s : State) : Host.Outcome State Fault Refusal :=
  andThen (HostAction.act (.issue i) s) (fun t => andThen (HostAction.act .wait t) (HostAction.act .read))

end Sys2Proof.Machine
end

