-- ==== Sys2Proof/Machine/Transaction.lean ====
section
/-! DEFINITION. The engine at transaction level (00_scope.md R18; 43_orchestrator.md R170, R171), with the latency LAT
an argument (70_reset_and_hazards.md R245, 93_implementation_defined.md entry 4), and the view of a state of the
reference micro-architecture at that level. -/

namespace Sys2Proof.Machine

/-- A legal command in progress: its result, and how many rising edges are left to its completing edge. -/
structure Pending where
  result : Block
  left : Nat
deriving DecidableEq, Repr

/-- The engine as the handshake shows it: the command in progress, the result presented (`out_valid = 1`), and the
error status. -/
structure TState where
  pending : Option Pending
  result : Option Block
  err : Bool
  errCode : ErrCode
deriving DecidableEq, Repr

/-- The output ports (10_state.md R24, R34). -/
def TState.outputs (t : TState) (rst : Bool) : Outputs where
  cmdReady := t.pending.isNone && !rst
  busy := t.pending.isSome
  outValid := t.result.isSome
  blockOut := t.result.getD 0
  err := t.err
  errCode := t.errCode

/-- The accepting edge of a legal command with the given result (43_orchestrator.md R170, R171). -/
def TState.start (lat : Nat) (result : Block) : TState where
  pending := some { result := result, left := lat }
  result := none
  err := false
  errCode := Config.errNone

/-- An accepting edge (43_orchestrator.md R170, R171; 60_exceptions.md R201). -/
def TState.accept (lat : Nat) (i : Instr) (t : TState) : TState :=
  match i with
  | .enc K B => .start lat (encrypt B K)
  | .dec K C => .start lat (decrypt C K)
  | .rsv2 _ _ => { t with result := none, err := true, errCode := Config.errIllegalOp }
  | .rsv3 _ _ => { t with result := none, err := true, errCode := Config.errIllegalOp }

/-- One rising edge (60_exceptions.md R205). A reset edge aborts a command in progress (70_reset_and_hazards.md R232);
the command completes LAT edges after its accepting edge (R245). -/
def TState.edge (lat : Nat) (p : Ports) (t : TState) : TState :=
  if p.rst then { pending := none, result := none, err := false, errCode := Config.errNone }
  else match t.pending with
    | some w =>
      if w.left ≤ 1 then { t with pending := none, result := some w.result }
      else { t with pending := some { w with left := w.left - 1 } }
    | none => if p.cmdValid then t.accept lat p.instr else t

/-- The running operation's own step, whatever stands on the ports (43_orchestrator.md R177 to R182). -/
def seqStep (s : State) : State :=
  match s.fsm with
  | .idle => s
  | .keygen => keygenStep s
  | .rnd => rndStep s
  | .unused => s

/-- n steps of the running operation. -/
def drain : Nat → State → State
  | 0, s => s
  | n + 1, s => drain n (seqStep s)

/-- The rising edges left to the completing edge in the reference micro-architecture (43_orchestrator.md R183). -/
def edgesLeft (s : State) : Nat :=
  match s.fsm with
  | .idle => 0
  | .keygen => 64 - s.ctr.toNat
  | .rnd =>
    match s.opR with
    | .enc => 32 - s.ctr.toNat
    | .dec => s.ctr.toNat + 1
  | .unused => 0

/-- A state of the reference micro-architecture seen at transaction level. -/
def State.view (s : State) : TState where
  pending := if s.busy then some { result := (drain (edgesLeft s) s).st, left := edgesLeft s } else none
  result := if s.outValid then some s.st else none
  err := s.err
  errCode := s.errCode

end Sys2Proof.Machine
end

