-- ==== Sys2Proof/Safety.lean ====
section
/-! DEFINITION. The terms claims are made in: runs of steps, the control invariant of the states after a reset edge, and
what the registers hold while a command is in progress. -/

namespace Sys2Proof.Machine

/-- n steps, none of which stops, lead from s to t. -/
def StepsTo : Nat → State → State → Prop
  | 0, s, t => s = t
  | n + 1, s, t => ∃ m, step s = .next m ∧ StepsTo n m t

/-- No reset edge in the next n cycles. -/
def NoResetIn (n : Nat) (s : State) : Prop := ∀ p ∈ s.inputs.take n, p.rst = false

/-- No reset and no command in the next n cycles. -/
def QuietIn (n : Nat) (s : State) : Prop := ∀ p ∈ s.inputs.take n, p.rst = false ∧ p.cmdValid = false

/-- The edge with ports p is an accepting edge of s (10_state.md R31). -/
def Accepts (p : Ports) (s : State) : Prop := p.rst = false ∧ p.cmdValid = true ∧ s.fsm = .idle

/-- The edge of s is a completing edge, where it is no reset edge (43_orchestrator.md R182). -/
def Completes (s : State) : Prop :=
  s.fsm = .rnd ∧ ((s.opR = .enc ∧ s.ctr = 31#5) ∨ (s.opR = .dec ∧ s.ctr = 0#5))

/-- The control registers as every state after a reset edge has them. -/
structure ControlInv (s : State) : Prop where
  /-- 0b11 is never reached (10_state.md R28, 93_implementation_defined.md entry 3). -/
  fsm_legal : s.fsm ≠ .unused
  /-- IDLE is entered with `ctr <- 0` only (43_orchestrator.md R182, 70_reset_and_hazards.md R230). -/
  idle_ctr : s.fsm = .idle → s.ctr = 0#5
  /-- In KEYGEN the counter is 1 to 31 (43_orchestrator.md R177). -/
  keygen_ctr : s.fsm = .keygen → s.ctr ≠ 0#5
  /-- While an operation is in progress no result and no error is reported (43_orchestrator.md R175). -/
  busy_status : s.fsm ≠ .idle → s.outValid = false ∧ s.err = false
  /-- A result and an error are never reported together (10_state.md R33, R35). -/
  one_status : s.outValid = true → s.err = false
  /-- `err_code` is 1 with `err` and 0 without it; 2 and 3 are never produced (10_state.md R36). -/
  err_code : s.errCode = if s.err then Config.errIllegalOp else Config.errNone

/-- What the registers hold while the command (d, K, B) is in progress, and when it has completed
(43_orchestrator.md R184). -/
def InFlight (d : Direction) (K : Key) (B : Block) (s : State) : Prop :=
  s.opR = d ∧
  match s.fsm with
  | .idle => s.st = cipher d B K ∧ s.rk = keySchedule K ∧ s.kreg = keyRegAfter K 31
  | .keygen =>
    s.ctr ≠ 0#5 ∧ s.st = B ∧ s.kreg = keyRegAfter K (s.ctr.toNat - 1) ∧
      ∀ j : Counter, j < s.ctr → readRk s.rk j = readRk (keySchedule K) j
  | .rnd =>
    s.rk = keySchedule K ∧ s.kreg = keyRegAfter K 31 ∧
      match d with
      | .enc => s.st = encRounds (keySchedule K) B s.ctr.toNat
      | .dec =>
        if s.ctr = 31#5 then s.st = B
        else s.st = decRounds (keySchedule K) (addRoundKey B (readRk (keySchedule K) 31#5)) (30 - s.ctr.toNat)
  | .unused => False

/-- The legal command of a direction (30_encoding.md R72). -/
def legalCommand : Direction → Key → Block → Instr
  | .enc, K, B => .enc K B
  | .dec, K, C => .dec K C

/-- Where the reference sequencing of a command stands after edge n, the accepting edge being edge 0
(43_orchestrator.md R183). -/
def schedulePoint (d : Direction) (n : Nat) : Fsm × Counter :=
  if n ≤ 30 then (.keygen, BitVec.ofNat 5 (n + 1))
  else if n ≤ 62 then
    match d with
    | .enc => (.rnd, BitVec.ofNat 5 (n - 31))
    | .dec => (.rnd, BitVec.ofNat 5 (62 - n))
  else (.idle, 0#5)

/-- Two states no port can ever tell apart by what is only hidden in them: idle or not, the control, status and coming
inputs are the same, and the data registers are the same wherever they can still matter (10_state.md R34, R39). -/
structure SameIdleView (s t : State) : Prop where
  left_idle : s.fsm = .idle
  right_idle : t.fsm = .idle
  inputs : s.inputs = t.inputs
  outValid : s.outValid = t.outValid
  result : s.outValid = true → s.st = t.st
  err : s.err = t.err
  errCode : s.errCode = t.errCode

end Sys2Proof.Machine
end

