-- ==== Sys2Proof/Certificates/Slice0/Obligations.lean ====
section
/-! DEFINITION. The statements for the provers, each from the rules of spec/ its docstring names. -/

open Sys2Proof Sys2Proof.Machine

/-! ## Command words (30_encoding.md, 20_memory.md section 2) -/

/-- The three examples of 30_encoding.md R80: each written line is the command whose word is the example's. -/
def Obligations.ExampleLinesHaveTheirCommandWords : Prop :=
  (assemble "ENC key=0x00000000000000000000, blk=0x0000000000000000".toList).map encode =
      some 0x0000000000000000000000000000000000000#146 ∧
  (assemble "DEC key=0xFFFFFFFFFFFFFFFFFFFF, blk=0xE72C46C0F5945049".toList).map encode =
      some 0x1FFFFFFFFFFFFFFFFFFFFE72C46C0F5945049#146 ∧
  (assemble "RSV2 key=0x00000000000000000000, blk=0x0000000000000000".toList).map encode =
      some 0x2000000000000000000000000000000000000#146 ∧
  decode 0x0000000000000000000000000000000000000#146 = .enc 0 0 ∧
  decode 0x1FFFFFFFFFFFFFFFFFFFFE72C46C0F5945049#146 = .dec 0xFFFFFFFFFFFFFFFFFFFF 0xE72C46C0F5945049 ∧
  decode 0x2000000000000000000000000000000000000#146 = .rsv2 0 0

/-- 30_encoding.md R75: the decoder, by the opcode field, on all 2^146 words. -/
def Obligations.DecoderSelectsByOpcodeField : Prop :=
  ∀ w : Command,
    (w.extractLsb' 144 2 = 0b00#2 → decode w = .enc (w.extractLsb' 64 80) (w.extractLsb' 0 64)) ∧
    (w.extractLsb' 144 2 = 0b01#2 → decode w = .dec (w.extractLsb' 64 80) (w.extractLsb' 0 64)) ∧
    (w.extractLsb' 144 2 = 0b10#2 → ∃ k b, decode w = .rsv2 k b) ∧
    (w.extractLsb' 144 2 = 0b11#2 → ∃ k b, decode w = .rsv3 k b)

/-- No bit of a command word is dropped: decode and encode are inverse both ways, and the table's reading of a word
agrees (30_encoding.md R71, R75, R77). -/
def Obligations.DecodeAndEncodeAreInverse : Prop :=
  (∀ i : Instr, decode (encode i) = i ∧ decodeTableWord 152 (encode i).toNat = some i) ∧
  (∀ w : Command, encode (decode w) = w)

/-- 20_memory.md R55: byte j of a buffer is the j-th from the most significant end of the word, for block, key and
result. -/
def Obligations.HostBuffersAreMostSignificantByteFirst : Prop :=
  (∀ (bs : List Byte) (j : Nat) (h : j < bs.length), bs.length = 8 →
    (blockOfBytes bs).extractLsb' (56 - 8 * j) 8 = bs[j]) ∧
  (∀ (bs : List Byte) (j : Nat) (h : j < bs.length), bs.length = 10 →
    (keyOfBytes bs).extractLsb' (72 - 8 * j) 8 = bs[j]) ∧
  (∀ (b : Block) (j : Nat), j < 8 → (bytesOfBlock b)[j]? = some (b.extractLsb' (56 - 8 * j) 8))

/-- A host call with the right buffer lengths is its command, any other is rejected by name before it reaches the
engine (00_scope.md R9, 60_exceptions.md R202). The 19-byte form of a whole command is the model's own choice (log
entry 8); it too loses no bit. -/
def Obligations.HostCallsRoundTripOrAreRejected : Prop :=
  (∀ i : Instr, decodeCall (encodeCall i) = .ok i ∧ decodeBytes (encodeBytes i) = .ok i) ∧
  (∀ c : HostCall, ¬(c.key.length = 10 ∧ c.block.length = 8) → decodeCall c = .error .wrongLength) ∧
  (∀ bs : List Byte, bs.length ≠ 19 → ∃ e, decodeBytes bs = .error e)

/-- 30_encoding.md R78: the written line of a command stands for that command. -/
def Obligations.AssemblyLineStandsForItsCommand : Prop :=
  ∀ i : Instr, assemble (assemblyLine i) = some i

/-! ## Substitution (40_sbox.md) -/

/-- 40_sbox.md R100 to R102: the two tables as listed, each the other's inverse. -/
def Obligations.SBoxTablesAreTheListedOnesAndInverse : Prop :=
  (List.range 16).map (fun x => sbox4 (BitVec.ofNat 4 x)) =
      [0xC, 0x5, 0x6, 0xB, 0x9, 0x0, 0xA, 0xD, 0x3, 0xE, 0xF, 0x8, 0x4, 0x7, 0x1, 0x2] ∧
  (List.range 16).map (fun y => sbox4Inv (BitVec.ofNat 4 y)) =
      [0x5, 0xE, 0xF, 0x8, 0xC, 0x1, 0x2, 0xD, 0xB, 0x4, 0x6, 0x3, 0x0, 0x7, 0x9, 0xA] ∧
  ∀ x : Nibble, sbox4Inv (sbox4 x) = x ∧ sbox4 (sbox4Inv x) = x

/-- 40_sbox.md R105 and R106: bit n of lane j of the result is bit n of the S-box of lane j, and every lane differs from
what it was (no S-box has a fixed point). -/
def Obligations.SubstitutionActsLaneByLaneAndChangesEveryLane : Prop :=
  ∀ (v : Block) (j : Nat), j < 16 →
    (∀ n < 4, (sLayer v).getLsbD (4 * j + n) = (sbox4 (v.extractLsb' (4 * j) 4)).getLsbD n ∧
      (sLayerInv v).getLsbD (4 * j + n) = (sbox4Inv (v.extractLsb' (4 * j) 4)).getLsbD n) ∧
    nib (sLayer v) j ≠ nib v j ∧ nib (sLayerInv v) j ≠ nib v j

/-- 40_sbox.md R107: the layers are inverse to each other, and bijections. -/
def Obligations.SubstitutionLayersAreInverse : Prop :=
  (∀ v : Block, sLayerInv (sLayer v) = v ∧ sLayer (sLayerInv v) = v) ∧
  Function.Bijective sLayer ∧ Function.Bijective sLayerInv

/-! ## Permutation (42_permutation.md) -/

/-- 42_permutation.md R140 to R144: the two position maps as tabulated, their closed forms, P a bijection of 0..63 with
exactly four fixed points, PINV its set-inverse, and P no involution. -/
def Obligations.PositionMapsAreTheTabulatedOnes : Prop :=
  (∀ i < 63, permP i = 16 * i % 63) ∧ permP 63 = 63 ∧
  (List.range 64).map permP =
    [0, 16, 32, 48, 1, 17, 33, 49, 2, 18, 34, 50, 3, 19, 35, 51] ++
    [4, 20, 36, 52, 5, 21, 37, 53, 6, 22, 38, 54, 7, 23, 39, 55] ++
    [8, 24, 40, 56, 9, 25, 41, 57, 10, 26, 42, 58, 11, 27, 43, 59] ++
    [12, 28, 44, 60, 13, 29, 45, 61, 14, 30, 46, 62, 15, 31, 47, 63] ∧
  (∀ m < 16, ∀ n < 4, permP (4 * m + n) = 16 * n + m ∧ permPInv (16 * n + m) = 4 * m + n) ∧
  (∀ i < 64, permPInv (permP i) = i) ∧
  (List.range 64).map permPInv =
    [0, 4, 8, 12, 16, 20, 24, 28, 32, 36, 40, 44, 48, 52, 56, 60] ++
    [1, 5, 9, 13, 17, 21, 25, 29, 33, 37, 41, 45, 49, 53, 57, 61] ++
    [2, 6, 10, 14, 18, 22, 26, 30, 34, 38, 42, 46, 50, 54, 58, 62] ++
    [3, 7, 11, 15, 19, 23, 27, 31, 35, 39, 43, 47, 51, 55, 59, 63] ∧
  (∀ j < 63, permPInv j = 4 * j % 63) ∧ permPInv 63 = 63 ∧
  (∀ j < 64, ((List.range 64).filter (fun i => permP i = j)).length = 1) ∧
  (List.range 64).filter (fun i => permP i = i) = [0, 21, 42, 63] ∧
  permP 1 = 16 ∧ permP (permP 1) = 4

/-- 42_permutation.md R145 and R146: where each bit goes, forward and back. -/
def Obligations.PermutationMovesEachBit : Prop :=
  ∀ (v : Block) (i : Nat), i < 64 →
    (pLayer v).getLsbD (permP i) = v.getLsbD i ∧ (pLayerInv v).getLsbD i = v.getLsbD (permP i)

/-- 42_permutation.md R147: the layers are inverse to each other. -/
def Obligations.PermutationLayersAreInverse : Prop :=
  ∀ v : Block, pLayerInv (pLayer v) = v ∧ pLayer (pLayerInv v) = v

/-! ## Key schedule (41_key_schedule.md) -/

/-- 41_key_schedule.md R122 to R124, bit by bit: rotation by 61 (bit j comes from bit (j + 19) mod 80), the forward S-box
on the nibble that was bits 18..15, the counter XORed into bits 19..15. -/
def Obligations.KeyUpdateBitMap : Prop :=
  ∀ (reg : Key) (i : Counter) (j : Nat), j < 80 →
    (ksUpdate reg i).getLsbD j =
      if 76 ≤ j then (sbox4 (reg.extractLsb' 15 4)).getLsbD (j - 76)
      else if 15 ≤ j ∧ j ≤ 19 then (reg.getLsbD (j + 19) ^^ i.getLsbD (j - 15))
      else reg.getLsbD ((j + 19) % 80)

/-- 41_key_schedule.md R122: for each counter value the update is a bijection on 80-bit values. -/
def Obligations.KeyUpdateIsBijective : Prop :=
  ∀ i : Counter, Function.Bijective (fun reg => ksUpdate reg i)

/-- 41_key_schedule.md R120, R126 and R127: round key 0 is taken before any update, round key i after the update with
counter i, which follows the update with counter i - 1. -/
def Obligations.ScheduleIteratesTheUpdate : Prop :=
  ∀ K : Key, ∃ reg : Nat → Key,
    reg 0 = K ∧
    (∀ i < 31, reg (i + 1) = ksUpdate (reg i) (BitVec.ofNat 5 (i + 1))) ∧
    (∀ i : Counter, readRk (keySchedule K) i = (reg i.toNat).extractLsb' 16 64)

/-- 41_key_schedule.md R129: the first two round keys determine the key, and how. -/
def Obligations.FirstTwoRoundKeysDetermineTheKey : Prop :=
  (∀ K : Key, readRk (keySchedule K) 0#5 = K.extractLsb' 16 64 ∧
    readRk (keySchedule K) 1#5 = (ksUpdate K 1#5).extractLsb' 16 64 ∧
    (readRk (keySchedule K) 1#5).extractLsb' 45 15 = K.extractLsb' 0 15 ∧
    (readRk (keySchedule K) 1#5).extractLsb' 60 4 = sbox4 (K.extractLsb' 15 4)) ∧
  (∀ K L : Key, readRk (keySchedule K) 0#5 = readRk (keySchedule L) 0#5 →
    readRk (keySchedule K) 1#5 = readRk (keySchedule L) 1#5 → K = L)

/-! ## Rounds and cipher (43_orchestrator.md section 1) -/

/-- 43_orchestrator.md R166: a decryption round undoes an encryption round with the same round key. -/
def Obligations.DecryptionRoundUndoesEncryptionRound : Prop :=
  ∀ (v : Block) (k : RoundKey), decRound (encRound v k) k = v

/-- The corner cases of 43_orchestrator.md R160 to R162, for every round key. -/
def Obligations.RoundCornerCases : Prop :=
  ∀ (v : Block) (k : RoundKey),
    addRoundKey v 0 = v ∧ addRoundKey v v = 0 ∧ addRoundKey (addRoundKey v k) k = v ∧
    encRound k k = 0xFFFFFFFF00000000 ∧ decRound 0xFFFFFFFF00000000 k = k

/-- 43_orchestrator.md R167: the primary correctness property of the core, both ways, for every key. -/
def Obligations.DecryptAndEncryptAreInverse : Prop :=
  (∀ (B : Block) (K : Key), decrypt (encrypt B K) K = B) ∧
  (∀ (C : Block) (K : Key), encrypt (decrypt C K) K = C) ∧
  (∀ K : Key, Function.Bijective (fun B => encrypt B K))

/-! ## Reset (70_reset_and_hazards.md section 1, 10_state.md section 6) -/

/-- 10_state.md R41, the values the spec states (those of ST, KREG and RK are the model's own, log entry 2), and the
outputs that follow from them. -/
def Obligations.ResetStateHasTheStatedValues : Prop :=
  State.reset.fsm = .idle ∧ State.reset.ctr = 0#5 ∧ State.reset.opR = .enc ∧ State.reset.outValid = false ∧
  State.reset.err = false ∧ State.reset.errCode = 0 ∧
  State.reset.cmdReady false = true ∧ State.reset.busy = false ∧ State.reset.blockOut = 0 ∧
  State.reset.status false = 0b000001#6

/-- 70_reset_and_hazards.md R230: in every state, power-up states included, a reset edge wins over everything else on the
ports, gives the control registers their values and leaves the data registers as they are. -/
def Obligations.ResetEdgeFromEveryState : Prop :=
  ∀ (s : State) (p : Ports) (ps : List Ports), s.inputs = p :: ps → p.rst = true →
    s.cmdReady p.rst = false ∧
    step s = .next { s with
      fsm := .idle, ctr := 0#5, opR := .enc, outValid := false, err := false, errCode := 0, inputs := ps }

/-- 70_reset_and_hazards.md R231: one reset edge is enough. -/
def Obligations.OneResetEdgeIsEnough : Prop :=
  ∀ (s t : State) (p : Ports), p.rst = true → clockEdge p s = .next t →
    (∀ q : Ports, q.rst = true → clockEdge q t = .next t) ∧
    ControlInv t ∧
    t.outputs false =
      { cmdReady := true, busy := false, outValid := false, blockOut := 0, err := false, errCode := 0 }

/-! ## One rising edge (43_orchestrator.md section 3, 60_exceptions.md) -/

/-- A step runs the command on the ports: where the coming cycle has `rst = 0`, `cmd_valid = 1` and a word that decodes
to i, the step is the meaning of i, on the state without that cycle (10_state.md R31, 30_encoding.md R70, R75). -/
def Obligations.StepRunsThePresentedCommand : Prop :=
  (∀ (s : State) (p : Ports) (ps : List Ports) (i : Instr), s.inputs = p :: ps → p.rst = false →
    p.cmdValid = true → decode (p.cmdOp ++ p.keyIn ++ p.blockIn) = i → step s = exec i { s with inputs := ps }) ∧
  (∀ (s : State) (i : Instr),
    step (s.withFetchWord 152 (encode i).toNat) = exec i { s with inputs := s.inputs.tail })

/-- 43_orchestrator.md R175: in IDLE a legal command is accepted. Every register not named keeps its value, and so does
every entry of RK but entry 0. -/
def Obligations.LegalCommandAcceptedInIdle : Prop :=
  ∀ (s : State) (K : Key) (B : Block), s.fsm = .idle →
    exec (.enc K B) s = .next { s with
      kreg := K, rk := s.rk.set 0 (K.extractLsb' 16 64), st := B, opR := .enc, ctr := 1#5, fsm := .keygen,
      outValid := false, err := false, errCode := 0 } ∧
    exec (.dec K B) s = .next { s with
      kreg := K, rk := s.rk.set 0 (K.extractLsb' 16 64), st := B, opR := .dec, ctr := 1#5, fsm := .keygen,
      outValid := false, err := false, errCode := 0 }

/-- 60_exceptions.md R201: in IDLE a reserved command raises ILLEGAL_OP; no other register changes, and the engine stays
ready. -/
def Obligations.ReservedCommandRaisesIllegalOp : Prop :=
  ∀ (s : State) (K : Key) (B : Block), s.fsm = .idle →
    exec (.rsv2 K B) s = .next { s with err := true, errCode := 1, outValid := false } ∧
    exec (.rsv3 K B) s = .next { s with err := true, errCode := 1, outValid := false } ∧
    ({ s with err := true, errCode := 1, outValid := false } : State).cmdReady false = true ∧
    ({ s with err := true, errCode := 1, outValid := false } : State).busy = false

/-- 60_exceptions.md R207: a second ILLEGAL_OP leaves the status as the first left it. -/
def Obligations.SecondIllegalOpChangesNothing : Prop :=
  ∀ (s t : State) (K L : Key) (B C : Block), s.fsm = .idle →
    (exec (.rsv2 K B) s = .next t ∨ exec (.rsv3 K B) s = .next t) →
    exec (.rsv2 L C) t = .next t ∧ exec (.rsv3 L C) t = .next t ∧ t.err = true ∧ t.errCode = 1

/-- 43_orchestrator.md R176: in IDLE without a command no register changes. -/
def Obligations.IdleEdgeWithoutCommandHolds : Prop :=
  ∀ (s : State) (p : Ports), s.fsm = .idle → p.rst = false → p.cmdValid = false → clockEdge p s = .next s

/-- 43_orchestrator.md R177, whatever stands on the ports but `rst`. -/
def Obligations.KeygenEdge : Prop :=
  ∀ (s : State) (p : Ports), s.fsm = .keygen → s.ctr ≠ 0#5 → p.rst = false →
    (s.ctr = 31#5 → clockEdge p s = .next { s with
      kreg := ksUpdate s.kreg s.ctr
      rk := s.rk.set s.ctr.toNat ((ksUpdate s.kreg s.ctr).extractLsb' 16 64) s.ctr.isLt
      fsm := .rnd
      ctr := if s.opR = .enc then 0#5 else 31#5 }) ∧
    (s.ctr ≠ 31#5 → clockEdge p s = .next { s with
      kreg := ksUpdate s.kreg s.ctr
      rk := s.rk.set s.ctr.toNat ((ksUpdate s.kreg s.ctr).extractLsb' 16 64) s.ctr.isLt
      ctr := s.ctr + 1#5 })

/-- 43_orchestrator.md R178. -/
def Obligations.EncryptionRoundEdge : Prop :=
  ∀ (s : State) (p : Ports), s.fsm = .rnd → s.opR = .enc → s.ctr ≠ 31#5 → p.rst = false →
    clockEdge p s = .next { s with st := encRound s.st (s.rk[s.ctr.toNat]'s.ctr.isLt), ctr := s.ctr + 1#5 }

/-- 43_orchestrator.md R179 and R182: the two completing edges, with all they write. -/
def Obligations.CompletingEdges : Prop :=
  ∀ (s : State) (p : Ports), s.fsm = .rnd → p.rst = false →
    (s.opR = .enc → s.ctr = 31#5 → clockEdge p s = .next { s with
      st := s.st ^^^ s.rk[31], fsm := .idle, ctr := 0#5, outValid := true }) ∧
    (s.opR = .dec → s.ctr = 0#5 → clockEdge p s = .next { s with
      st := decRound s.st s.rk[0], fsm := .idle, ctr := 0#5, outValid := true }) ∧
    (∀ t, Completes s → clockEdge p s = .next t → t.busy = false ∧ t.cmdReady false = true ∧ t.blockOut = t.st)

/-- 43_orchestrator.md R180. -/
def Obligations.DecryptionUnwhiteningEdge : Prop :=
  ∀ (s : State) (p : Ports), s.fsm = .rnd → s.opR = .dec → s.ctr = 31#5 → p.rst = false →
    clockEdge p s = .next { s with st := s.st ^^^ s.rk[31], ctr := 30#5 }

/-- 43_orchestrator.md R181. -/
def Obligations.DecryptionRoundEdge : Prop :=
  ∀ (s : State) (p : Ports), s.fsm = .rnd → s.opR = .dec → s.ctr ≠ 31#5 → p.rst = false →
    (s.ctr ≠ 0#5 → clockEdge p s = .next { s with
      st := decRound s.st (s.rk[s.ctr.toNat]'s.ctr.isLt), ctr := s.ctr - 1#5 }) ∧
    (s.ctr = 0#5 → clockEdge p s = .next { s with
      st := decRound s.st (s.rk[s.ctr.toNat]'s.ctr.isLt), fsm := .idle, ctr := 0#5, outValid := true })

/-- 43_orchestrator.md R186: outside IDLE no port but `rst` matters and a presented command changes nothing; once the
engine is IDLE, a command still presented is taken. -/
def Obligations.BusyEngineSamplesOnlyReset : Prop :=
  (∀ (s : State) (p q : Ports), s.fsm ≠ .idle → p.rst = false → q.rst = false → clockEdge p s = clockEdge q s) ∧
  (∀ (s : State) (p : Ports) (i : Instr), s.fsm ≠ .idle → p.rst = false → exec i s = clockEdge p s) ∧
  (∀ (s : State) (p : Ports), s.fsm = .idle → p.rst = false → p.cmdValid = true →
    clockEdge p s = exec p.instr s ∧ s.cmdReady p.rst = true)

/-- Where an edge stops: only in control states no run reaches after a reset edge (93_implementation_defined.md entry 3;
41_key_schedule.md R127; log entries 5 and 6). -/
def Obligations.UnreachableControlStatesStop : Prop :=
  ∀ (s : State) (p : Ports), p.rst = false →
    (clockEdge p s = .refused .fsmUnused ↔ s.fsm = .unused) ∧
    (clockEdge p s = .fault .keygenAtZero ↔ s.fsm = .keygen ∧ s.ctr = 0#5)

/-- What a command's edge leaves unchanged (00_scope.md R14; 43_orchestrator.md R175 to R182; 60_exceptions.md R201). -/
def Obligations.CommandFrames : Prop :=
  ∀ (i : Instr) (s t : State), exec i s = .next t →
    t.inputs = s.inputs ∧
    (s.fsm = .idle → i.opcode.getLsbD 1 = true →
      t.st = s.st ∧ t.kreg = s.kreg ∧ t.rk = s.rk ∧ t.fsm = s.fsm ∧ t.ctr = s.ctr ∧ t.opR = s.opR) ∧
    (s.fsm = .idle → i.opcode.getLsbD 1 = false → ∀ j : Counter, j ≠ 0#5 → readRk t.rk j = readRk s.rk j) ∧
    (s.fsm = .keygen →
      t.st = s.st ∧ t.opR = s.opR ∧ t.outValid = s.outValid ∧ t.err = s.err ∧ t.errCode = s.errCode ∧
      ∀ j : Counter, j ≠ s.ctr → readRk t.rk j = readRk s.rk j) ∧
    (s.fsm = .rnd →
      t.kreg = s.kreg ∧ t.rk = s.rk ∧ t.opR = s.opR ∧ t.err = s.err ∧ t.errCode = s.errCode)

/-! ## Status flags and outputs (10_state.md sections 2 and 4) -/

/-- 10_state.md R33: what sets `out_valid`, what clears it, and that nothing else changes it. -/
def Obligations.OutValidChangesOnlyAtItsEdges : Prop :=
  ∀ (s t : State) (p : Ports), clockEdge p s = .next t →
    (p.rst = true ∨ Accepts p s → t.outValid = false) ∧
    (p.rst = false → Completes s → t.outValid = true) ∧
    (p.rst = false → ¬Accepts p s → ¬Completes s → t.outValid = s.outValid)

/-- 10_state.md R35: what sets `err`, what clears it, and that nothing else changes it; `err_code` is written exactly
with it. -/
def Obligations.ErrorStatusChangesOnlyAtItsEdges : Prop :=
  ∀ (s t : State) (p : Ports), clockEdge p s = .next t →
    (Accepts p s → p.cmdOp.getLsbD 1 = true → t.err = true ∧ t.errCode = 1) ∧
    (Accepts p s → p.cmdOp.getLsbD 1 = false → t.err = false ∧ t.errCode = 0) ∧
    (p.rst = true → t.err = false ∧ t.errCode = 0) ∧
    (p.rst = false → ¬Accepts p s → t.err = s.err ∧ t.errCode = s.errCode)

/-- 10_state.md R32: what sets `busy`, what clears it, and that an accepted reserved command does not set it. -/
def Obligations.BusyChangesOnlyAtItsEdges : Prop :=
  ∀ (s t : State) (p : Ports), clockEdge p s = .next t →
    (s.busy = true ↔ s.fsm ≠ .idle) ∧
    (Accepts p s → p.cmdOp.getLsbD 1 = false → t.busy = true) ∧
    (Accepts p s → p.cmdOp.getLsbD 1 = true → t.busy = false) ∧
    (p.rst = true → t.busy = false) ∧
    (p.rst = false → Completes s → t.busy = false) ∧
    (p.rst = false → ¬Accepts p s → ¬Completes s → t.busy = s.busy)

/-- 10_state.md R25: the status vector field by field; `cmd_ready` and `busy` are never both 1. -/
def Obligations.StatusVectorFields : Prop :=
  ∀ (s : State) (rst : Bool),
    (s.status rst).getLsbD 0 = (s.fsm == .idle && !rst) ∧
    (s.status rst).getLsbD 1 = (s.fsm != .idle) ∧
    (s.status rst).getLsbD 2 = s.outValid ∧
    (s.status rst).getLsbD 3 = s.err ∧
    (s.status rst).extractLsb' 4 2 = s.errCode ∧
    ¬((s.status rst).getLsbD 0 = true ∧ (s.status rst).getLsbD 1 = true)

/-- 10_state.md R34 and R40: no port shows KREG, RK, ctr or op_r, nor ST while `out_valid = 0`; `block_out` is then 0. -/
def Obligations.OutputsHideKeysAndIntermediateStates : Prop :=
  (∀ (s t : State) (rst : Bool), s.fsm = t.fsm → s.outValid = t.outValid → (s.outValid = true → s.st = t.st) →
    s.err = t.err → s.errCode = t.errCode → s.outputs rst = t.outputs rst) ∧
  (∀ s : State, s.outValid = false → s.blockOut = 0) ∧ (∀ s : State, s.outValid = true → s.blockOut = s.st)

/-- 43_orchestrator.md R185: which step an edge takes, and so where the sequencing stands next, depends on `fsm`, `ctr`
and `op_r` only. -/
def Obligations.SequencingIsDataIndependent : Prop :=
  ∀ (s s' t : State) (p p' : Ports), s.fsm ≠ .idle → p.rst = false → p'.rst = false →
    s'.fsm = s.fsm → s'.ctr = s.ctr → s'.opR = s.opR → clockEdge p s = .next t →
    ∃ t', clockEdge p' s' = .next t' ∧ t'.fsm = t.fsm ∧ t'.ctr = t.ctr ∧ t'.opR = t.opR

/-! ## Invariants -/

/-- The control invariant holds at reset. -/
def Obligations.ControlInvariantHoldsAtReset : Prop := ControlInv State.reset

/-- From every state with the control invariant, whatever the host drives, the step goes on and keeps it: `fsm` is never
0b11, `err_code` never 2 or 3, KEYGEN never at counter 0, no result or error is reported while busy (10_state.md R28, R36;
43_orchestrator.md R175 to R182; 93_implementation_defined.md entries 3 and 6). -/
def Obligations.EveryStepGoesOnAndKeepsTheControlInvariant : Prop :=
  ∀ s : State, ControlInv s → ∃ t, step s = .next t ∧ ControlInv t

/-! ## Whole commands (43_orchestrator.md R170 to R173, R183, R184)

The coming port values are the list `inputs`. Where a run is longer than the list, the cycles beyond it are quiet, the
model's own choice (log entry 3); every statement below holds for lists of every length. -/

/-- 43_orchestrator.md R184: after each edge of an accepted command, where the sequencing stands and what ST, KREG and RK
hold, whatever they held before and whatever the host drives but reset. -/
def Obligations.RegistersDuringACommand : Prop :=
  ∀ (d : Direction) (K : Key) (B : Block) (s : State) (n : Nat), s.fsm = .idle → n ≤ 63 → NoResetIn n s →
    ∃ t u, exec (legalCommand d K B) s = .next t ∧ StepsTo n t u ∧
      (u.fsm, u.ctr) = schedulePoint d n ∧ InFlight d K B u

/-- ENC as a whole (43_orchestrator.md R163, R170, R182, R183): accepted in IDLE, with no reset edge in the next 63
cycles, it completes at edge 63 with `block_out = Encrypt(B, K)`. -/
def Obligations.EncCompletesWithTheCiphertext : Prop :=
  ∀ (s : State) (K : Key) (B : Block), s.fsm = .idle → NoResetIn 63 s →
    ∃ t u, exec (.enc K B) s = .next t ∧ StepsTo 63 t u ∧
      u = { st := encrypt B K, kreg := keyRegAfter K 31, rk := keySchedule K, fsm := .idle, ctr := 0#5, opR := .enc,
            outValid := true, err := false, errCode := 0, inputs := s.inputs.drop 63 } ∧
      u.outputs false = { cmdReady := true, busy := false, outValid := true, blockOut := encrypt B K, err := false,
                          errCode := 0 }

/-- DEC as a whole (43_orchestrator.md R164, R171, R182, R183): accepted in IDLE, with no reset edge in the next 63
cycles, it completes at edge 63 with `block_out = Decrypt(C, K)`. -/
def Obligations.DecCompletesWithThePlaintext : Prop :=
  ∀ (s : State) (K : Key) (C : Block), s.fsm = .idle → NoResetIn 63 s →
    ∃ t u, exec (.dec K C) s = .next t ∧ StepsTo 63 t u ∧
      u = { st := decrypt C K, kreg := keyRegAfter K 31, rk := keySchedule K, fsm := .idle, ctr := 0#5, opR := .dec,
            outValid := true, err := false, errCode := 0, inputs := s.inputs.drop 63 } ∧
      u.outputs false = { cmdReady := true, busy := false, outValid := true, blockOut := decrypt C K, err := false,
                          errCode := 0 }

/-- Before edge 63 of a command the ports show a busy engine with no result (43_orchestrator.md R183;
70_reset_and_hazards.md R242, R246). -/
def Obligations.NoResultBeforeTheCompletingEdge : Prop :=
  ∀ (d : Direction) (K : Key) (B : Block) (s : State) (n : Nat) (rst : Bool), s.fsm = .idle → n < 63 → NoResetIn n s →
    ∃ t u, exec (legalCommand d K B) s = .next t ∧ StepsTo n t u ∧
      u.outputs rst = { cmdReady := false, busy := true, outValid := false, blockOut := 0, err := false, errCode := 0 }

/-- 43_orchestrator.md R173: at the edge after the completing one the next command is accepted, and its accepting edge
clears `out_valid`. -/
def Obligations.BackToBackCommandIsAccepted : Prop :=
  ∀ (s t : State) (p q : Ports), Completes s → p.rst = false → clockEdge p s = .next t →
    t.cmdReady false = true ∧
    (q.rst = false → q.cmdValid = true →
      ∃ u, clockEdge q t = .next u ∧ exec q.instr t = .next u ∧ u.outValid = false)

/-- In IDLE, while the host drives neither reset nor a command, every register keeps its value for any number of edges,
so a result stays on `block_out` (43_orchestrator.md R176; 60_exceptions.md R214; 70_reset_and_hazards.md R243). -/
def Obligations.IdleEngineHoldsItsStateAndResult : Prop :=
  ∀ (s : State) (n : Nat), s.fsm = .idle → QuietIn n s →
    ∃ u, StepsTo n s u ∧ u = { s with inputs := s.inputs.drop n } ∧ u.blockOut = s.blockOut

/-- 70_reset_and_hazards.md R232: a reset edge before the completing edge aborts the command: for any number of quiet
edges after it, no result is presented. -/
def Obligations.ResetDuringACommandAbortsIt : Prop :=
  ∀ (d : Direction) (K : Key) (B : Block) (s : State) (n m : Nat) (p : Ports) (ps : List Ports),
    s.fsm = .idle → n < 63 → NoResetIn n s → s.inputs.drop n = p :: ps → p.rst = true →
    (∀ q ∈ ps.take m, q.rst = false ∧ q.cmdValid = false) →
    ∃ t u w, exec (legalCommand d K B) s = .next t ∧ StepsTo n t u ∧ u.outValid = false ∧
      StepsTo (1 + m) u w ∧ w.outValid = false ∧ w.blockOut = 0 ∧ w.cmdReady false = true

/-- 10_state.md R39 and 43_orchestrator.md R172: two idle engines with the same status and the same presented result,
whatever their key registers, round keys, counters and unpresented ST, show the same on every port for ever under the
same inputs. -/
def Obligations.HiddenStateNeverReachesAPort : Prop :=
  ∀ (s t : State), ControlInv s → ControlInv t → SameIdleView s t → ∀ (n : Nat) (rst : Bool),
    ∃ u v, StepsTo n s u ∧ StepsTo n t v ∧ u.outputs rst = v.outputs rst

/-! ## Transaction level (00_scope.md R18, 70_reset_and_hazards.md R245) and the host's actions (30_encoding.md R79) -/

/-- The transaction machine, for every LAT: a command accepted with nothing in progress presents nothing for LAT - 1
edges and its result at edge LAT, whatever the host drives but reset (43_orchestrator.md R170, R171;
70_reset_and_hazards.md R245). -/
def Obligations.TransactionCompletesAfterLatEdges : Prop :=
  ∀ (lat : Nat) (d : Direction) (K : Key) (B : Block) (t : TState) (p : Ports) (ps : List Ports), 0 < lat →
    t.pending = none → p.rst = false → p.cmdValid = true → p.instr = legalCommand d K B →
    (∀ q ∈ ps, q.rst = false) →
    (ps.length < lat → ∀ rst, (ps.foldl (fun x q => x.edge lat q) (t.edge lat p)).outputs rst =
      { cmdReady := false, busy := true, outValid := false, blockOut := 0, err := false, errCode := 0 }) ∧
    (ps.length = lat → (ps.foldl (fun x q => x.edge lat q) (t.edge lat p)).outputs false =
      { cmdReady := true, busy := false, outValid := true, blockOut := cipher d B K, err := false, errCode := 0 })

/-- The reference micro-architecture refines the transaction machine with LAT = 63: from every state with the control
invariant, whatever the host drives, the ports show the same and the next states correspond (00_scope.md R18;
43_orchestrator.md R183, R184). -/
def Obligations.ReferenceRefinesTransactionLevel : Prop :=
  ∀ (s : State) (p : Ports), ControlInv s →
    s.outputs p.rst = s.view.outputs p.rst ∧
    ∃ t, clockEdge p s = .next t ∧ ControlInv t ∧ t.view = s.view.edge Config.referenceLat p

/-- RUN (30_encoding.md R79) from every state with the control invariant, busy ones included: the command is taken, and
READ gives its answer. -/
def Obligations.HostRunReadsTheAnswer : Prop :=
  ∀ (s : State) (K : Key) (B : Block), ControlInv s →
    (∃ u, hostRun (.enc K B) s = .next u ∧
      u.read = { blockOut := encrypt B K, outValid := true, err := false, errCode := 0 }) ∧
    (∃ u, hostRun (.dec K B) s = .next u ∧
      u.read = { blockOut := decrypt B K, outValid := true, err := false, errCode := 0 }) ∧
    (∃ u, hostRun (.rsv2 K B) s = .next u ∧ u.read = { blockOut := 0, outValid := false, err := true, errCode := 1 }) ∧
    (∃ u, hostRun (.rsv3 K B) s = .next u ∧ u.read = { blockOut := 0, outValid := false, err := true, errCode := 1 })
end

