-- ==== Sys2Proof/Laws/Cipher.lean ====
section
/-! SUPPORT. What the table, wiring and key-schedule operations do, one lemma each: a lane-wise substitution by lanes, a
bit-wise write by bits, the round-key file by entries. -/

namespace Sys2Proof.Machine

/-- A bit of a fold that ORs one value per index into a block. -/
theorem getLsbD_foldl_or (f : Nat → Block) (l : List Nat) (r : Block) (k : Nat) :
    (l.foldl (fun r j => r ||| f j) r).getLsbD k = (r.getLsbD k || l.any (fun j => (f j).getLsbD k)) := by
  induction l generalizing r with
  | nil => simp
  | cons j l ih => simp [ih, Bool.or_assoc]

/-- A bit of a nibble is a bit of its block (00_scope.md R13). -/
theorem getLsbD_nib (v : Block) (j n : Nat) : (nib v j).getLsbD n = (decide (n < 4) && v.getLsbD (4 * j + n)) := by
  simp [nib]

/-- A lane-wise substitution, bit by bit (40_sbox.md R105). -/
theorem getLsbD_mapNibbles (f : Nibble → Nibble) (v : Block) (k : Nat) (hk : k < 64) :
    (mapNibbles f v).getLsbD k = (f (nib v (k / 4))).getLsbD (k % 4) := by
  unfold mapNibbles
  rw [getLsbD_foldl_or]
  simp only [BitVec.ofNat_eq_ofNat, BitVec.getLsbD_zero, Bool.false_or]
  rw [Bool.eq_iff_iff]
  simp only [List.any_eq_true, List.mem_range, BitVec.getLsbD_shiftLeft, BitVec.getLsbD_setWidth,
    Bool.and_eq_true, decide_eq_true_eq, Bool.not_eq_true', decide_eq_false_iff_not]
  constructor
  · rintro ⟨j, hj, ⟨-, h4⟩, -, hb⟩
    have hlt : k - 4 * j < 4 := BitVec.lt_of_getLsbD hb
    have h1 : k / 4 = j := by omega
    have h2 : k % 4 = k - 4 * j := by omega
    rw [h1, h2]
    exact hb
  · intro hb
    refine ⟨k / 4, by omega, ⟨hk, by omega⟩, by omega, ?_⟩
    have : k - 4 * (k / 4) = k % 4 := by omega
    rw [this]
    exact hb

/-- A lane-wise substitution, lane by lane: no lane reads another (40_sbox.md R105). -/
theorem nib_mapNibbles (f : Nibble → Nibble) (v : Block) (j : Nat) (hj : j < 16) :
    nib (mapNibbles f v) j = f (nib v j) := by
  apply BitVec.eq_of_getLsbD_eq
  intro n hn
  have h1 : (4 * j + n) / 4 = j := by omega
  have h2 : (4 * j + n) % 4 = n := by omega
  rw [getLsbD_nib, getLsbD_mapNibbles f v _ (by omega), h1, h2]
  simp [hn]

/-- Two blocks with the same sixteen nibbles are the same. -/
theorem block_eq_of_nib_eq (v w : Block) (h : ∀ j < 16, nib v j = nib w j) : v = w := by
  apply BitVec.eq_of_getLsbD_eq
  intro k hk
  have h1 : 4 * (k / 4) + k % 4 = k := by omega
  have h2 := congrArg (fun x => x.getLsbD (k % 4)) (h (k / 4) (by omega))
  simp only [getLsbD_nib, h1] at h2
  simpa [show k % 4 < 4 by omega] using h2

/-- A block written bit by bit has a bit set exactly where some set bit was written (42_permutation.md R145). -/
theorem getLsbD_scatterBits (p : Nat → Nat) (bit : Nat → Bool) (k : Nat) (hk : k < 64) :
    (scatterBits p bit).getLsbD k = (List.range 64).any (fun i => decide (p i = k) && bit i) := by
  unfold scatterBits
  rw [getLsbD_foldl_or]
  simp only [BitVec.ofNat_eq_ofNat, BitVec.getLsbD_zero, Bool.false_or]
  congr 1
  funext i
  rw [Bool.eq_iff_iff]
  simp only [BitVec.getLsbD_shiftLeft, BitVec.getLsbD_setWidth, BitVec.getLsbD_ofBool, Bool.and_eq_true,
    decide_eq_true_eq, Bool.not_eq_true', decide_eq_false_iff_not]
  constructor
  · rintro ⟨⟨-, h1⟩, -, h2, h3⟩
    exact ⟨by omega, h3⟩
  · rintro ⟨rfl, h⟩
    exact ⟨⟨hk, by omega⟩, by omega, by omega, h⟩

/-- Reading the entry just written, and any other (20_memory.md R51). -/
@[simp] theorem readRk_writeRk (rk : RoundKeyFile) (i j : Counter) (v : RoundKey) :
    readRk (writeRk rk i v) j = if i = j then v else readRk rk j := by
  unfold readRk writeRk
  rw [Vector.getElem_set]
  simp only [← BitVec.toNat_inj]

/-- Two round-key files with the same entries are the same. -/
theorem roundKeyFile_ext (a b : RoundKeyFile) (h : ∀ i : Counter, readRk a i = readRk b i) : a = b := by
  ext i hi : 1
  have := h (BitVec.ofNat 5 i)
  simpa [readRk, Nat.mod_eq_of_lt (show i < 32 from hi)] using this

/-- Entry k of the loop of 41_key_schedule.md R120 started after i updates. -/
theorem scheduleLoop_getElem? (K reg : Key) (i n k : Nat) (hk : k < n) (hreg : reg = keyRegAfter K i) :
    (scheduleLoop reg (i + 1) n)[k]? = some (roundKeyOf (keyRegAfter K (i + 1 + k))) := by
  induction n generalizing reg i k with
  | zero => omega
  | succ n ih =>
    have hreg' : ksUpdate reg (BitVec.ofNat 5 (i + 1)) = keyRegAfter K (i + 1) := by rw [hreg, keyRegAfter]
    cases k with
    | zero => rw [scheduleLoop, List.getElem?_cons_zero, hreg', Nat.add_zero]
    | succ k =>
      rw [scheduleLoop, List.getElem?_cons_succ, hreg', ih _ (i + 1) k (by omega) rfl,
        show i + 1 + 1 + k = i + 1 + (k + 1) by omega]

/-- Entry i of the schedule is the round key of the register after i updates (41_key_schedule.md R120). -/
theorem readRk_keySchedule (K : Key) (i : Counter) :
    readRk (keySchedule K) i = roundKeyOf (keyRegAfter K i.toNat) := by
  have hlist : (roundKeyOf K :: scheduleLoop K 1 31)[i.toNat]? = some (roundKeyOf (keyRegAfter K i.toNat)) := by
    rcases hi : i.toNat with _ | k
    · rw [List.getElem?_cons_zero, keyRegAfter]
    · rw [List.getElem?_cons_succ, scheduleLoop_getElem? K K 0 31 k (by have := i.isLt; omega) rfl,
        show 0 + 1 + k = k + 1 by omega]
  unfold readRk keySchedule
  rw [Vector.getElem_mk, List.getElem_toArray]
  exact (List.getElem?_eq_some_iff.mp hlist).2

@[simp] theorem cipher_enc (B : Block) (K : Key) : cipher .enc B K = encrypt B K := rfl
@[simp] theorem cipher_dec (B : Block) (K : Key) : cipher .dec B K = decrypt B K := rfl

end Sys2Proof.Machine
end

