-- ==== Sys2Proof/Laws/Decode.lean ====
section
/-! SUPPORT. The fields of a packed command word, and what the decoder makes of each opcode. -/

namespace Sys2Proof

/-- A bit of `{op, key, block}` (30_encoding.md R71). -/
theorem getLsbD_pack (op : Opcode) (k : Key) (b : Block) (i : Nat) :
    (packCommand op k b).getLsbD i =
      if i < 64 then b.getLsbD i else if i - 64 < 80 then k.getLsbD (i - 64) else op.getLsbD (i - 64 - 80) := by
  have h1 : (packCommand op k b).getLsbD i = if i < 64 then b.getLsbD i else (op ++ k).getLsbD (i - 64) :=
    (BitVec.getLsbD_append (x := op ++ k) (y := b)).trans (by simp)
  rw [h1, BitVec.getLsbD_append]

/-- The fields of `{op, key, block}` (30_encoding.md R71). -/
theorem commandOp_pack (op : Opcode) (k : Key) (b : Block) : commandOp (packCommand op k b) = op := by
  apply BitVec.eq_of_getLsbD_eq
  intro i hi
  rw [commandOp, BitVec.getLsbD_extractLsb', getLsbD_pack]
  simp [hi, show ¬ 144 + i < 64 by omega, show ¬ 144 + i - 64 < 80 by omega, show 144 + i - 64 - 80 = i by omega]

theorem commandKey_pack (op : Opcode) (k : Key) (b : Block) : commandKey (packCommand op k b) = k := by
  apply BitVec.eq_of_getLsbD_eq
  intro i hi
  rw [commandKey, BitVec.getLsbD_extractLsb', getLsbD_pack]
  simp [hi]

theorem commandBlock_pack (op : Opcode) (k : Key) (b : Block) : commandBlock (packCommand op k b) = b := by
  apply BitVec.eq_of_getLsbD_eq
  intro i hi
  rw [commandBlock, BitVec.getLsbD_extractLsb', getLsbD_pack]
  simp [hi]

/-- The four opcodes (30_encoding.md R72). -/
theorem opcode_cases (op : Opcode) : op = 0b00#2 ∨ op = 0b01#2 ∨ op = 0b10#2 ∨ op = 0b11#2 := by
  revert op
  decide

theorem commandOf_opcode (i : Instr) : commandOf i.opcode i.key i.block = i := by
  cases i <;> rfl

end Sys2Proof
end

