-- ==== Sys2Proof/Laws/PerInstr.lean ====
section
/-! SUPPORT. One statement about each constructor of Instr: where its fields stand in its command word. -/

namespace Sys2Proof.Laws.EncodingFields

/-- The command word holds the opcode in bits 145..144, the key in 143..64 and the block in 63..0
(30_encoding.md R71). -/
def Statement (i : Instr) : Prop :=
  commandOp (encode i) = i.opcode ∧ commandKey (encode i) = i.key ∧ commandBlock (encode i) = i.block

theorem enc (key : Key) (block : Block) : Statement (.enc key block) :=
  ⟨commandOp_pack .., commandKey_pack .., commandBlock_pack ..⟩

theorem dec (key : Key) (block : Block) : Statement (.dec key block) :=
  ⟨commandOp_pack .., commandKey_pack .., commandBlock_pack ..⟩

theorem rsv2 (key : Key) (block : Block) : Statement (.rsv2 key block) :=
  ⟨commandOp_pack .., commandKey_pack .., commandBlock_pack ..⟩

theorem rsv3 (key : Key) (block : Block) : Statement (.rsv3 key block) :=
  ⟨commandOp_pack .., commandKey_pack .., commandBlock_pack ..⟩

end Sys2Proof.Laws.EncodingFields
end

