-- ==== Sys2Proof/Laws/State.lean ====
section
/-! SUPPORT. One lemma per field per update of the state, each true by rfl, so that no later proof unfolds a record
update. -/

namespace Sys2Proof.Machine

@[simp] theorem setOutValid_st (s : State) : s.setOutValid.st = s.st := rfl
@[simp] theorem setOutValid_kreg (s : State) : s.setOutValid.kreg = s.kreg := rfl
@[simp] theorem setOutValid_rk (s : State) : s.setOutValid.rk = s.rk := rfl
@[simp] theorem setOutValid_fsm (s : State) : s.setOutValid.fsm = s.fsm := rfl
@[simp] theorem setOutValid_ctr (s : State) : s.setOutValid.ctr = s.ctr := rfl
@[simp] theorem setOutValid_opR (s : State) : s.setOutValid.opR = s.opR := rfl
@[simp] theorem setOutValid_outValid (s : State) : s.setOutValid.outValid = true := rfl
@[simp] theorem setOutValid_err (s : State) : s.setOutValid.err = s.err := rfl
@[simp] theorem setOutValid_errCode (s : State) : s.setOutValid.errCode = s.errCode := rfl
@[simp] theorem setOutValid_inputs (s : State) : s.setOutValid.inputs = s.inputs := rfl

@[simp] theorem clearOutValid_st (s : State) : s.clearOutValid.st = s.st := rfl
@[simp] theorem clearOutValid_kreg (s : State) : s.clearOutValid.kreg = s.kreg := rfl
@[simp] theorem clearOutValid_rk (s : State) : s.clearOutValid.rk = s.rk := rfl
@[simp] theorem clearOutValid_fsm (s : State) : s.clearOutValid.fsm = s.fsm := rfl
@[simp] theorem clearOutValid_ctr (s : State) : s.clearOutValid.ctr = s.ctr := rfl
@[simp] theorem clearOutValid_opR (s : State) : s.clearOutValid.opR = s.opR := rfl
@[simp] theorem clearOutValid_outValid (s : State) : s.clearOutValid.outValid = false := rfl
@[simp] theorem clearOutValid_err (s : State) : s.clearOutValid.err = s.err := rfl
@[simp] theorem clearOutValid_errCode (s : State) : s.clearOutValid.errCode = s.errCode := rfl
@[simp] theorem clearOutValid_inputs (s : State) : s.clearOutValid.inputs = s.inputs := rfl

@[simp] theorem setErr_st (s : State) (c : ErrCode) : (s.setErr c).st = s.st := rfl
@[simp] theorem setErr_kreg (s : State) (c : ErrCode) : (s.setErr c).kreg = s.kreg := rfl
@[simp] theorem setErr_rk (s : State) (c : ErrCode) : (s.setErr c).rk = s.rk := rfl
@[simp] theorem setErr_fsm (s : State) (c : ErrCode) : (s.setErr c).fsm = s.fsm := rfl
@[simp] theorem setErr_ctr (s : State) (c : ErrCode) : (s.setErr c).ctr = s.ctr := rfl
@[simp] theorem setErr_opR (s : State) (c : ErrCode) : (s.setErr c).opR = s.opR := rfl
@[simp] theorem setErr_outValid (s : State) (c : ErrCode) : (s.setErr c).outValid = s.outValid := rfl
@[simp] theorem setErr_err (s : State) (c : ErrCode) : (s.setErr c).err = true := rfl
@[simp] theorem setErr_errCode (s : State) (c : ErrCode) : (s.setErr c).errCode = c := rfl
@[simp] theorem setErr_inputs (s : State) (c : ErrCode) : (s.setErr c).inputs = s.inputs := rfl

@[simp] theorem clearErr_st (s : State) : s.clearErr.st = s.st := rfl
@[simp] theorem clearErr_kreg (s : State) : s.clearErr.kreg = s.kreg := rfl
@[simp] theorem clearErr_rk (s : State) : s.clearErr.rk = s.rk := rfl
@[simp] theorem clearErr_fsm (s : State) : s.clearErr.fsm = s.fsm := rfl
@[simp] theorem clearErr_ctr (s : State) : s.clearErr.ctr = s.ctr := rfl
@[simp] theorem clearErr_opR (s : State) : s.clearErr.opR = s.opR := rfl
@[simp] theorem clearErr_outValid (s : State) : s.clearErr.outValid = s.outValid := rfl
@[simp] theorem clearErr_err (s : State) : s.clearErr.err = false := rfl
@[simp] theorem clearErr_errCode (s : State) : s.clearErr.errCode = Config.errNone := rfl
@[simp] theorem clearErr_inputs (s : State) : s.clearErr.inputs = s.inputs := rfl

@[simp] theorem nextCycle_st (s : State) : s.nextCycle.st = s.st := rfl
@[simp] theorem nextCycle_kreg (s : State) : s.nextCycle.kreg = s.kreg := rfl
@[simp] theorem nextCycle_rk (s : State) : s.nextCycle.rk = s.rk := rfl
@[simp] theorem nextCycle_fsm (s : State) : s.nextCycle.fsm = s.fsm := rfl
@[simp] theorem nextCycle_ctr (s : State) : s.nextCycle.ctr = s.ctr := rfl
@[simp] theorem nextCycle_opR (s : State) : s.nextCycle.opR = s.opR := rfl
@[simp] theorem nextCycle_outValid (s : State) : s.nextCycle.outValid = s.outValid := rfl
@[simp] theorem nextCycle_err (s : State) : s.nextCycle.err = s.err := rfl
@[simp] theorem nextCycle_errCode (s : State) : s.nextCycle.errCode = s.errCode := rfl
@[simp] theorem nextCycle_inputs (s : State) : s.nextCycle.inputs = s.inputs.tail := rfl

@[simp] theorem drive_st (s : State) (p : Ports) : (s.drive p).st = s.st := rfl
@[simp] theorem drive_kreg (s : State) (p : Ports) : (s.drive p).kreg = s.kreg := rfl
@[simp] theorem drive_rk (s : State) (p : Ports) : (s.drive p).rk = s.rk := rfl
@[simp] theorem drive_fsm (s : State) (p : Ports) : (s.drive p).fsm = s.fsm := rfl
@[simp] theorem drive_ctr (s : State) (p : Ports) : (s.drive p).ctr = s.ctr := rfl
@[simp] theorem drive_opR (s : State) (p : Ports) : (s.drive p).opR = s.opR := rfl
@[simp] theorem drive_outValid (s : State) (p : Ports) : (s.drive p).outValid = s.outValid := rfl
@[simp] theorem drive_err (s : State) (p : Ports) : (s.drive p).err = s.err := rfl
@[simp] theorem drive_errCode (s : State) (p : Ports) : (s.drive p).errCode = s.errCode := rfl
@[simp] theorem drive_inputs (s : State) (p : Ports) : (s.drive p).inputs = p :: s.inputs.tail := rfl

@[simp] theorem hold_st (s : State) : (hold s).st = s.st := rfl
@[simp] theorem hold_kreg (s : State) : (hold s).kreg = s.kreg := rfl
@[simp] theorem hold_rk (s : State) : (hold s).rk = s.rk := rfl
@[simp] theorem hold_fsm (s : State) : (hold s).fsm = s.fsm := rfl
@[simp] theorem hold_ctr (s : State) : (hold s).ctr = s.ctr := rfl
@[simp] theorem hold_opR (s : State) : (hold s).opR = s.opR := rfl
@[simp] theorem hold_outValid (s : State) : (hold s).outValid = s.outValid := rfl
@[simp] theorem hold_err (s : State) : (hold s).err = s.err := rfl
@[simp] theorem hold_errCode (s : State) : (hold s).errCode = s.errCode := rfl
@[simp] theorem hold_inputs (s : State) : (hold s).inputs = s.inputs := rfl

@[simp] theorem complete_st (s : State) : (complete s).st = s.st := rfl
@[simp] theorem complete_kreg (s : State) : (complete s).kreg = s.kreg := rfl
@[simp] theorem complete_rk (s : State) : (complete s).rk = s.rk := rfl
@[simp] theorem complete_fsm (s : State) : (complete s).fsm = .idle := rfl
@[simp] theorem complete_ctr (s : State) : (complete s).ctr = 0#5 := rfl
@[simp] theorem complete_opR (s : State) : (complete s).opR = s.opR := rfl
@[simp] theorem complete_outValid (s : State) : (complete s).outValid = true := rfl
@[simp] theorem complete_err (s : State) : (complete s).err = s.err := rfl
@[simp] theorem complete_errCode (s : State) : (complete s).errCode = s.errCode := rfl
@[simp] theorem complete_inputs (s : State) : (complete s).inputs = s.inputs := rfl

@[simp] theorem resetEdge_st (s : State) : (resetEdge s).st = s.st := rfl
@[simp] theorem resetEdge_kreg (s : State) : (resetEdge s).kreg = s.kreg := rfl
@[simp] theorem resetEdge_rk (s : State) : (resetEdge s).rk = s.rk := rfl
@[simp] theorem resetEdge_fsm (s : State) : (resetEdge s).fsm = .idle := rfl
@[simp] theorem resetEdge_ctr (s : State) : (resetEdge s).ctr = 0#5 := rfl
@[simp] theorem resetEdge_opR (s : State) : (resetEdge s).opR = .enc := rfl
@[simp] theorem resetEdge_outValid (s : State) : (resetEdge s).outValid = false := rfl
@[simp] theorem resetEdge_err (s : State) : (resetEdge s).err = false := rfl
@[simp] theorem resetEdge_errCode (s : State) : (resetEdge s).errCode = Config.errNone := rfl
@[simp] theorem resetEdge_inputs (s : State) : (resetEdge s).inputs = s.inputs := rfl

@[simp] theorem raiseIllegalOp_st (s : State) : (raiseIllegalOp s).st = s.st := rfl
@[simp] theorem raiseIllegalOp_kreg (s : State) : (raiseIllegalOp s).kreg = s.kreg := rfl
@[simp] theorem raiseIllegalOp_rk (s : State) : (raiseIllegalOp s).rk = s.rk := rfl
@[simp] theorem raiseIllegalOp_fsm (s : State) : (raiseIllegalOp s).fsm = s.fsm := rfl
@[simp] theorem raiseIllegalOp_ctr (s : State) : (raiseIllegalOp s).ctr = s.ctr := rfl
@[simp] theorem raiseIllegalOp_opR (s : State) : (raiseIllegalOp s).opR = s.opR := rfl
@[simp] theorem raiseIllegalOp_outValid (s : State) : (raiseIllegalOp s).outValid = false := rfl
@[simp] theorem raiseIllegalOp_err (s : State) : (raiseIllegalOp s).err = true := rfl
@[simp] theorem raiseIllegalOp_errCode (s : State) : (raiseIllegalOp s).errCode = Config.errIllegalOp := rfl
@[simp] theorem raiseIllegalOp_inputs (s : State) : (raiseIllegalOp s).inputs = s.inputs := rfl

@[simp] theorem acceptLegal_st (d : Direction) (K : Key) (B : Block) (s : State) : (acceptLegal d K B s).st = B := rfl
@[simp] theorem acceptLegal_kreg (d : Direction) (K : Key) (B : Block) (s : State) : (acceptLegal d K B s).kreg = K := rfl
@[simp] theorem acceptLegal_rk (d : Direction) (K : Key) (B : Block) (s : State) : (acceptLegal d K B s).rk = writeRk s.rk 0#5 (roundKeyOf K) := rfl
@[simp] theorem acceptLegal_fsm (d : Direction) (K : Key) (B : Block) (s : State) : (acceptLegal d K B s).fsm = .keygen := rfl
@[simp] theorem acceptLegal_ctr (d : Direction) (K : Key) (B : Block) (s : State) : (acceptLegal d K B s).ctr = 1#5 := rfl
@[simp] theorem acceptLegal_opR (d : Direction) (K : Key) (B : Block) (s : State) : (acceptLegal d K B s).opR = d := rfl
@[simp] theorem acceptLegal_outValid (d : Direction) (K : Key) (B : Block) (s : State) : (acceptLegal d K B s).outValid = false := rfl
@[simp] theorem acceptLegal_err (d : Direction) (K : Key) (B : Block) (s : State) : (acceptLegal d K B s).err = false := rfl
@[simp] theorem acceptLegal_errCode (d : Direction) (K : Key) (B : Block) (s : State) : (acceptLegal d K B s).errCode = Config.errNone := rfl
@[simp] theorem acceptLegal_inputs (d : Direction) (K : Key) (B : Block) (s : State) : (acceptLegal d K B s).inputs = s.inputs := rfl

end Sys2Proof.Machine
end

