-- ==== Sys2Proof/Laws/Step.lean ====
section
/-! SUPPORT. What one rising edge can do, said once: by the control state, by the ports, and as an inversion of `step`. -/

namespace Sys2Proof.Machine

/-! The edge by control state (60_exceptions.md R205). -/

theorem edgeWith_idle (f : State → State) (s : State) (h : s.fsm = .idle) : edgeWith f s = .next (f s) := by
  simp [edgeWith, h]

theorem edgeWith_keygen (f : State → State) (s : State) (h : s.fsm = .keygen) (hc : s.ctr ≠ 0#5) :
    edgeWith f s = .next (keygenStep s) := by
  simpa [edgeWith, h] using hc

theorem edgeWith_rnd (f : State → State) (s : State) (h : s.fsm = .rnd) : edgeWith f s = .next (rndStep s) := by
  simp [edgeWith, h]

/-- Everything an edge without reset can do when it answers a next state. -/
theorem edgeWith_next (f : State → State) (s t : State) (h : edgeWith f s = .next t) :
    (s.fsm = .idle ∧ t = f s) ∨ (s.fsm = .keygen ∧ s.ctr ≠ 0#5 ∧ t = keygenStep s) ∨
      (s.fsm = .rnd ∧ t = rndStep s) := by
  unfold edgeWith at h
  cases hf : s.fsm <;> simp only [hf] at h
  · exact .inl ⟨rfl, by simpa using h.symm⟩
  · split at h
    · cases h
    · exact .inr (.inl ⟨rfl, ‹_›, by simpa using h.symm⟩)
  · exact .inr (.inr ⟨rfl, by simpa using h.symm⟩)
  · cases h

/-! The sequencing steps by counter (43_orchestrator.md R177 to R182). -/

theorem rndStep_enc (s : State) (h : s.opR = .enc) : rndStep s = encStep s := by simp [rndStep, h]

theorem rndStep_dec (s : State) (h : s.opR = .dec) : rndStep s = decStep s := by simp [rndStep, h]

theorem encStep_last (s : State) (h : s.ctr = 31#5) :
    encStep s = complete { s with st := addRoundKey s.st (readRk s.rk 31#5) } := by
  unfold encStep
  simp only [h, reduceIte]

theorem encStep_round (s : State) (h : s.ctr ≠ 31#5) :
    encStep s = { s with st := encRound s.st (readRk s.rk s.ctr), ctr := s.ctr + 1#5 } := by
  simp [encStep, h]

theorem decStep_first (s : State) (h : s.ctr = 31#5) :
    decStep s = { s with st := addRoundKey s.st (readRk s.rk 31#5), ctr := 30#5 } := by
  simp [decStep, h]

theorem decStep_last (s : State) (h : s.ctr = 0#5) :
    decStep s = complete { s with st := decRound s.st (readRk s.rk 0#5) } := by
  simp [decStep, h]

theorem decStep_round (s : State) (h : s.ctr ≠ 31#5) (h0 : s.ctr ≠ 0#5) :
    decStep s = { s with st := decRound s.st (readRk s.rk s.ctr), ctr := s.ctr - 1#5 } := by
  simp [decStep, h, h0]

/-- What no sequencing step touches. -/
theorem keygenStep_frame (s : State) :
    (keygenStep s).st = s.st ∧ (keygenStep s).opR = s.opR ∧ (keygenStep s).outValid = s.outValid ∧
      (keygenStep s).err = s.err ∧ (keygenStep s).errCode = s.errCode ∧ (keygenStep s).inputs = s.inputs := by
  unfold keygenStep
  split <;> simp

theorem rndStep_frame (s : State) :
    (rndStep s).kreg = s.kreg ∧ (rndStep s).rk = s.rk ∧ (rndStep s).opR = s.opR ∧ (rndStep s).err = s.err ∧
      (rndStep s).errCode = s.errCode ∧ (rndStep s).inputs = s.inputs := by
  unfold rndStep encStep decStep
  cases s.opR <;> simp only <;> (repeat' split) <;> simp

/-! The edge by ports (60_exceptions.md R205). -/

theorem clockEdge_reset (p : Ports) (s : State) (h : p.rst = true) : clockEdge p s = .next (resetEdge s) := by
  simp [clockEdge, h]

theorem clockEdge_command (p : Ports) (s : State) (h : p.rst = false) (hv : p.cmdValid = true) :
    clockEdge p s = exec p.instr s := by
  simp [clockEdge, h, hv]

theorem clockEdge_quiet (p : Ports) (s : State) (h : p.rst = false) (hv : p.cmdValid = false) :
    clockEdge p s = edgeWith hold s := by
  simp [clockEdge, h, hv]

/-- What a command does to the state at its accepting edge (43_orchestrator.md R175, 60_exceptions.md R201). -/
def acceptance : Instr → State → State
  | .enc K B => acceptLegal .enc K B
  | .dec K C => acceptLegal .dec K C
  | .rsv2 _ _ => raiseIllegalOp
  | .rsv3 _ _ => raiseIllegalOp

theorem exec_eq (i : Instr) (s : State) : exec i s = edgeWith (acceptance i) s := by
  cases i <;> rfl

/-- Everything a rising edge can do when it answers a next state (60_exceptions.md R205). -/
theorem clockEdge_next (p : Ports) (s t : State) (h : clockEdge p s = .next t) :
    (p.rst = true ∧ t = resetEdge s) ∨
    (p.rst = false ∧ p.cmdValid = true ∧ s.fsm = .idle ∧ t = acceptance p.instr s) ∨
    (p.rst = false ∧ p.cmdValid = false ∧ s.fsm = .idle ∧ t = s) ∨
    (p.rst = false ∧ s.fsm = .keygen ∧ s.ctr ≠ 0#5 ∧ t = keygenStep s) ∨
    (p.rst = false ∧ s.fsm = .rnd ∧ t = rndStep s) := by
  rcases hr : p.rst with _ | _
  · rcases hv : p.cmdValid with _ | _
    · rw [clockEdge_quiet p s hr hv] at h
      rcases edgeWith_next hold s t h with ⟨h1, h2⟩ | h' | h'
      · exact .inr (.inr (.inl ⟨rfl, rfl, h1, h2⟩))
      · exact .inr (.inr (.inr (.inl ⟨rfl, h'⟩)))
      · exact .inr (.inr (.inr (.inr ⟨rfl, h'⟩)))
    · rw [clockEdge_command p s hr hv, exec_eq] at h
      rcases edgeWith_next _ s t h with ⟨h1, h2⟩ | h' | h'
      · exact .inr (.inl ⟨rfl, rfl, h1, h2⟩)
      · exact .inr (.inr (.inr (.inl ⟨rfl, h'⟩)))
      · exact .inr (.inr (.inr (.inr ⟨rfl, h'⟩)))
  · rw [clockEdge_reset p s hr] at h
    exact .inl ⟨rfl, by simpa using h.symm⟩

/-- A presented word stands on the ports as itself (30_encoding.md R71). -/
@[simp] theorem command_ofWord (w : Command) : (Ports.ofWord w).command = w := by
  apply BitVec.eq_of_getLsbD_eq
  intro i hi
  simp only [Ports.ofWord, Ports.command, getLsbD_pack, commandOp, commandKey, commandBlock,
    BitVec.getLsbD_extractLsb']
  split
  · simp [*]
  · split
    · simp [show 64 + (i - 64) = i by omega, *]
    · simp [show 144 + (i - 64 - 80) = i by omega, show i - 64 - 80 < 2 by omega]

/-- The next step is the edge with the ports at the head of the list. -/
theorem step_cons (s : State) (p : Ports) (ps : List Ports) (h : s.inputs = p :: ps) :
    step s = clockEdge p { s with inputs := ps } := by
  simp [step, State.ports, State.nextCycle, h]

theorem step_nil (s : State) (h : s.inputs = []) : step s = clockEdge Ports.quiet s := by
  cases s
  simp_all [step, State.ports, State.nextCycle]

end Sys2Proof.Machine
end

