-- ==== Sys2Proof/Laws/Runs.lean ====
section
/-! SUPPORT. Runs of steps: what a step makes of the coming inputs, composition, determinism, and the one induction an
invariant needs. -/

namespace Sys2Proof.Machine

/-- An edge leaves the coming cycles as they are. -/
theorem clockEdge_inputs (p : Ports) (s t : State) (h : clockEdge p s = .next t) : t.inputs = s.inputs := by
  rcases clockEdge_next p s t h with ⟨-, rfl⟩ | ⟨-, -, -, rfl⟩ | ⟨-, -, -, rfl⟩ | ⟨-, -, -, rfl⟩ | ⟨-, -, rfl⟩
  · rfl
  · cases p.instr <;> rfl
  · rfl
  · exact (keygenStep_frame s).2.2.2.2.2
  · exact (rndStep_frame s).2.2.2.2.2

/-- A step takes one cycle off the list. -/
theorem step_inputs (s t : State) (h : step s = .next t) : t.inputs = s.inputs.tail :=
  clockEdge_inputs _ _ _ h

/-- n steps take n cycles off the list. -/
theorem stepsTo_inputs (n : Nat) (s t : State) (h : StepsTo n s t) : t.inputs = s.inputs.drop n := by
  induction n generalizing s with
  | zero => rw [show s = t from h, List.drop_zero]
  | succ n ih =>
    obtain ⟨m, hm, hn⟩ := h
    rw [ih m hn, step_inputs s m hm, List.drop_tail]

theorem stepsTo_trans (m n : Nat) (s t u : State) (h : StepsTo m s t) (k : StepsTo n t u) :
    StepsTo (m + n) s u := by
  induction m generalizing s with
  | zero =>
    rw [Nat.zero_add, show s = t from h]
    exact k
  | succ m ih =>
    obtain ⟨x, hx, hm⟩ := h
    rw [Nat.succ_add]
    exact ⟨x, hx, ih x hm⟩

theorem stepsTo_succ (n : Nat) (s t u : State) (h : StepsTo n s t) (k : step t = .next u) : StepsTo (n + 1) s u :=
  stepsTo_trans n 1 s t u h ⟨u, k, rfl⟩

/-- A run has one end. -/
theorem stepsTo_unique (n : Nat) (s t u : State) (h : StepsTo n s t) (k : StepsTo n s u) : t = u := by
  induction n generalizing s with
  | zero => exact Eq.trans (Eq.symm h) k
  | succ n ih =>
    obtain ⟨x, hx, hn⟩ := h
    obtain ⟨y, hy, kn⟩ := k
    rw [hx] at hy
    cases hy
    exact ih x hn kn

/-- What holds of a state and is kept by every step holds all along a run. -/
theorem stepsTo_keeps (I : State → Prop) (hstep : ∀ s t, I s → step s = .next t → I t) (n : Nat) (s t : State)
    (hs : I s) (h : StepsTo n s t) : I t := by
  induction n generalizing s with
  | zero => exact (show s = t from h) ▸ hs
  | succ n ih =>
    obtain ⟨m, hm, hn⟩ := h
    exact ih m (hstep s m hs hm) hn

/-- The running operation's step is what an edge without reset does outside IDLE. -/
theorem edgeWith_busy (f : State → State) (s : State) (hb : s.busy = true) (hu : s.fsm ≠ .unused)
    (hc : s.fsm = .keygen → s.ctr ≠ 0#5) : edgeWith f s = .next (seqStep s) := by
  unfold edgeWith seqStep
  cases hf : s.fsm
  · simp [State.busy, hf] at hb
  · simp [hc hf]
  · rfl
  · exact absurd hf hu

end Sys2Proof.Machine
end

