-- ==== Sys2Proof/Laws/Sequencing.lean ====
section
/-! SUPPORT. What the sequencing steps do to the control registers and to a command in progress, one lemma per case; and
what an accepting edge can be. -/

namespace Sys2Proof.Machine

/-! The ports and the accepting edge. -/

/-- The command on the ports, by its opcode (30_encoding.md R72, R75). -/
theorem instr_eq (p : Ports) : p.instr = commandOf p.cmdOp p.keyIn p.blockIn := by
  simp [Ports.instr, Ports.command, decode, commandOp_pack, commandKey_pack, commandBlock_pack]

/-- Presenting a command puts that command on the ports. -/
theorem instr_present (i : Instr) : (Ports.present i).instr = i := by
  simp [Ports.instr, Ports.present, decode, encode, commandOp_pack, commandKey_pack, commandBlock_pack,
    commandOf_opcode]

/-- An accepting edge raises ILLEGAL_OP where `cmd_op[1] = 1`, and starts a command where it is 0
(43_orchestrator.md R175, 60_exceptions.md R201). -/
theorem acceptance_cases (p : Ports) (s : State) :
    (p.cmdOp.getLsbD 1 = true ∧ acceptance p.instr s = raiseIllegalOp s) ∨
      (p.cmdOp.getLsbD 1 = false ∧ ∃ d K B, acceptance p.instr s = acceptLegal d K B s) := by
  rw [instr_eq]
  rcases opcode_cases p.cmdOp with h | h | h | h <;> rw [h]
  · exact .inr ⟨rfl, _, _, _, rfl⟩
  · exact .inr ⟨rfl, _, _, _, rfl⟩
  · exact .inl ⟨rfl, rfl⟩
  · exact .inl ⟨rfl, rfl⟩

/-- Outside IDLE what an accepting edge would do does not matter (43_orchestrator.md R186). -/
theorem edgeWith_notIdle (f g : State → State) (s : State) (h : s.fsm ≠ .idle) : edgeWith f s = edgeWith g s := by
  unfold edgeWith
  cases hf : s.fsm <;> first | exact absurd hf h | rfl

/-- Outside IDLE an edge without reset is the running operation's own (43_orchestrator.md R186). -/
theorem clockEdge_notIdle (p : Ports) (s : State) (hr : p.rst = false) (h : s.fsm ≠ .idle) :
    clockEdge p s = edgeWith hold s := by
  rcases hv : p.cmdValid
  · rw [clockEdge_quiet _ _ hr hv]
  · rw [clockEdge_command _ _ hr hv, exec_eq, edgeWith_notIdle _ _ _ h]

/-! The counter: 5 bits that neither wrap upward from below 31 nor downward from above 0. -/

theorem counter_toNat_ne_31 (c : Counter) (h : c ≠ 31#5) : c.toNat ≠ 31 := fun e => h (BitVec.eq_of_toNat_eq e)

theorem counter_toNat_ne_0 (c : Counter) (h : c ≠ 0#5) : c.toNat ≠ 0 := fun e => h (BitVec.eq_of_toNat_eq e)

theorem counter_succ (c : Counter) (h : c ≠ 31#5) : (c + 1#5).toNat = c.toNat + 1 := by
  have := counter_toNat_ne_31 c h
  rw [BitVec.toNat_add]
  simp
  omega

theorem counter_pred (c : Counter) (h : c ≠ 0#5) : (c - 1#5).toNat = c.toNat - 1 := by
  have := counter_toNat_ne_0 c h
  rw [BitVec.toNat_sub]
  simp
  omega

theorem counter_succ_ne_0 (c : Counter) (h : c ≠ 31#5) : c + 1#5 ≠ 0#5 := by
  intro e
  have := congrArg BitVec.toNat e
  rw [counter_succ c h] at this
  simp at this

/-! The control registers after a step (43_orchestrator.md R177 to R182). -/

theorem keygenStep_fsm (s : State) : (keygenStep s).fsm = if s.ctr = 31#5 then .rnd else s.fsm := by
  unfold keygenStep
  split <;> simp [*]

theorem keygenStep_ctr (s : State) (h : s.ctr ≠ 31#5) : (keygenStep s).ctr = s.ctr + 1#5 := by
  rw [keygenStep, if_neg h]

theorem keygenStep_ctr_last (s : State) (h : s.ctr = 31#5) :
    (keygenStep s).ctr = match s.opR with
      | .enc => 0#5
      | .dec => 31#5 := by
  cases hd : s.opR <;> simp [keygenStep, h, hd]

/-- A RND step completes the command or stays in RND with the status it had (43_orchestrator.md R178 to R182). -/
theorem rndStep_cases (s : State) (h : s.fsm = .rnd) :
    (Completes s ∧ (rndStep s).fsm = .idle ∧ (rndStep s).ctr = 0#5 ∧ (rndStep s).outValid = true) ∨
      (¬Completes s ∧ (rndStep s).fsm = .rnd ∧ (rndStep s).outValid = s.outValid) := by
  rcases ho : s.opR
  · rw [rndStep_enc s ho]
    by_cases hc : s.ctr = 31#5
    · rw [encStep_last s hc]
      simp [Completes, h, ho, hc]
    · rw [encStep_round s hc]
      simp [Completes, h, ho, hc]
  · rw [rndStep_dec s ho]
    by_cases hc : s.ctr = 31#5
    · rw [decStep_first s hc]
      simp [Completes, h, ho, hc]
    · by_cases h0 : s.ctr = 0#5
      · rw [decStep_last s h0]
        simp [Completes, h, ho, h0]
      · rw [decStep_round s hc h0]
        simp [Completes, h, ho, h0]

theorem seqStep_keygen (s : State) (h : s.fsm = .keygen) : seqStep s = keygenStep s := by simp [seqStep, h]

theorem seqStep_rnd (s : State) (h : s.fsm = .rnd) : seqStep s = rndStep s := by simp [seqStep, h]

/-- Each step of a running operation brings it one edge nearer its completing edge (43_orchestrator.md R183). -/
theorem edgesLeft_seqStep (s : State) (h : s.fsm ≠ .idle) (hu : s.fsm ≠ .unused) :
    edgesLeft s = edgesLeft (seqStep s) + 1 ∧ ((seqStep s).fsm = .idle ↔ edgesLeft s = 1) ∧
      (seqStep s).fsm ≠ .unused := by
  have lt := s.ctr.isLt
  cases hf : s.fsm
  · exact absurd hf h
  · rw [seqStep_keygen s hf]
    have hfs := keygenStep_fsm s
    by_cases hc : s.ctr = 31#5
    · rw [if_pos hc] at hfs
      unfold edgesLeft
      rw [hfs, hf, (keygenStep_frame s).2.1, keygenStep_ctr_last s hc, hc]
      cases s.opR <;> simp
    · rw [if_neg hc, hf] at hfs
      have := counter_toNat_ne_31 s.ctr hc
      unfold edgesLeft
      rw [hfs, hf, keygenStep_ctr s hc]
      simp only [counter_succ s.ctr hc]
      exact ⟨by omega, by simp; omega, by simp⟩
  · rw [seqStep_rnd s hf]
    unfold edgesLeft
    rw [hf]
    rcases ho : s.opR
    · rw [rndStep_enc s ho]
      by_cases hc : s.ctr = 31#5
      · rw [encStep_last s hc]
        simp [hc]
      · have := counter_toNat_ne_31 s.ctr hc
        rw [encStep_round s hc]
        simp only [hf, counter_succ s.ctr hc, ho]
        exact ⟨by omega, by simp; omega, by simp⟩
    · rw [rndStep_dec s ho]
      by_cases hc : s.ctr = 31#5
      · rw [decStep_first s hc]
        simp [hc, hf, ho]
      · by_cases h0 : s.ctr = 0#5
        · rw [decStep_last s h0]
          simp [h0]
        · have := counter_toNat_ne_0 s.ctr h0
          rw [decStep_round s hc h0]
          simp only [hf, counter_pred s.ctr h0, ho]
          exact ⟨by omega, by simp; omega, by simp⟩
  · exact absurd hf hu

/-! The data registers of a command in progress (43_orchestrator.md R184). -/

theorem inFlight_acceptLegal (d : Direction) (K : Key) (B : Block) (s : State) :
    InFlight d K B (acceptLegal d K B s) := by
  refine ⟨rfl, by simp, rfl, rfl, fun j hj => ?_⟩
  have : j = 0#5 := by
    revert hj
    simp
  subst this
  simp [readRk_keySchedule, keyRegAfter]

/-- A KEYGEN step keeps what the registers hold of a command (43_orchestrator.md R177, R184). -/
theorem inFlight_keygenStep (d : Direction) (K : Key) (B : Block) (s : State) (h : s.fsm = .keygen)
    (i : InFlight d K B s) : InFlight d K B (keygenStep s) := by
  obtain ⟨ho, hi⟩ := i
  simp only [h] at hi
  obtain ⟨h0, hst, hk, hrk⟩ := hi
  refine ⟨(keygenStep_frame s).2.1.trans ho, ?_⟩
  have hks : ksUpdate s.kreg s.ctr = keyRegAfter K s.ctr.toNat := by
    obtain ⟨m, hm⟩ : ∃ m, s.ctr.toNat = m + 1 := Nat.exists_eq_succ_of_ne_zero (counter_toNat_ne_0 _ h0)
    rw [hk, hm, keyRegAfter, Nat.add_sub_cancel, ← hm]
    simp
  have hall : ∀ j : Counter, j.toNat ≤ s.ctr.toNat →
      readRk (writeRk s.rk s.ctr (roundKeyOf (ksUpdate s.kreg s.ctr))) j = readRk (keySchedule K) j := by
    intro j hj
    rw [readRk_writeRk]
    split
    · subst_vars
      rw [readRk_keySchedule, hks]
    · rename_i hne
      exact hrk j (BitVec.lt_def.mpr (lt_of_le_of_ne hj fun e => hne (BitVec.eq_of_toNat_eq e.symm)))
  by_cases hc : s.ctr = 31#5
  · have hfile : writeRk s.rk s.ctr (roundKeyOf (ksUpdate s.kreg s.ctr)) = keySchedule K :=
      roundKeyFile_ext _ _ fun j => hall j (by
        rw [hc]
        have := j.isLt
        simp
        omega)
    rw [keygenStep, if_pos hc]
    refine ⟨hfile, by rw [hks, hc]; rfl, ?_⟩
    rw [ho]
    cases d <;> simp [hst, encRounds]
  · rw [keygenStep, if_neg hc]
    simp only [h]
    refine ⟨counter_succ_ne_0 _ hc, hst, by rw [counter_succ _ hc, hks]; rfl, fun j hj => hall j ?_⟩
    have h1 := BitVec.lt_def.mp hj
    rw [counter_succ _ hc] at h1
    omega

/-- A RND step keeps what the registers hold of a command; the completing one leaves the result
(43_orchestrator.md R178 to R182, R184). -/
theorem inFlight_rndStep (d : Direction) (K : Key) (B : Block) (s : State) (h : s.fsm = .rnd)
    (i : InFlight d K B s) : InFlight d K B (rndStep s) := by
  obtain ⟨ho, hi⟩ := i
  simp only [h] at hi
  obtain ⟨hrk, hk, hst⟩ := hi
  refine ⟨(rndStep_frame s).2.2.1.trans ho, ?_⟩
  have lt := s.ctr.isLt
  cases d
  · simp only at hst
    rw [rndStep_enc s ho]
    by_cases hc : s.ctr = 31#5
    · rw [encStep_last s hc]
      refine ⟨?_, hrk, hk⟩
      simp [hst, hrk, hc, encrypt, Config.numRounds]
    · rw [encStep_round s hc]
      simp only [h]
      refine ⟨hrk, hk, ?_⟩
      rw [counter_succ s.ctr hc, encRounds, hst, hrk]
      simp
  · simp only at hst
    rw [rndStep_dec s ho]
    by_cases hc : s.ctr = 31#5
    · rw [decStep_first s hc]
      simp only [h]
      rw [if_pos hc] at hst
      exact ⟨hrk, hk, by simp [hst, hrk, decRounds]⟩
    · rw [if_neg hc] at hst
      have h31 := counter_toNat_ne_31 s.ctr hc
      by_cases h0 : s.ctr = 0#5
      · rw [decStep_last s h0]
        refine ⟨?_, hrk, hk⟩
        simp [hst, hrk, h0, decrypt, Config.numRounds, decRounds]
      · have hpos := counter_toNat_ne_0 s.ctr h0
        have e := counter_pred s.ctr h0
        have hne : s.ctr - 1#5 ≠ 31#5 := by
          intro e'
          rw [e'] at e
          simp at e
          omega
        rw [decStep_round s hc h0]
        simp only [h]
        refine ⟨hrk, hk, ?_⟩
        rw [if_neg hne, e, show 30 - (s.ctr.toNat - 1) = (30 - s.ctr.toNat) + 1 by omega, decRounds, hst, hrk,
          show 30 - (30 - s.ctr.toNat) = s.ctr.toNat by omega]
        simp

end Sys2Proof.Machine
end

