-- ==== Sys2Proof/Laws/Text.lean ====
section
/-! SUPPORT. Host byte buffers and written hex digits: what is written is what is read back. -/

namespace Sys2Proof

theorem bytesOfNat_length (n x : Nat) : (bytesOfNat n x).length = n := by
  induction n with
  | zero => rfl
  | succ n ih => simp [bytesOfNat, ih]

/-- A buffer read onto a number already held. -/
theorem foldl_bytes (bs : List Byte) (r : Nat) :
    bs.foldl (fun n b => n * 256 + b.toNat) r = r * 256 ^ bs.length + natOfBytes bs := by
  induction bs generalizing r with
  | nil => simp [natOfBytes]
  | cons b bs ih =>
    rw [natOfBytes, List.foldl_cons, List.foldl_cons, ih, ih]
    simp only [Nat.zero_mul, Nat.zero_add, List.length_cons, pow_succ]
    ring

theorem natOfBytes_cons (b : Byte) (bs : List Byte) :
    natOfBytes (b :: bs) = b.toNat * 256 ^ bs.length + natOfBytes bs := by
  rw [natOfBytes, List.foldl_cons, foldl_bytes]
  simp

/-- The n bytes of a number hold it modulo 256^n (20_memory.md R55). -/
theorem natOfBytes_bytesOfNat (n x : Nat) : natOfBytes (bytesOfNat n x) = x % 256 ^ n := by
  induction n with
  | zero => simp [natOfBytes, bytesOfNat, Nat.mod_one]
  | succ n ih =>
    rw [bytesOfNat, natOfBytes_cons, ih, bytesOfNat_length, pow_succ, Nat.mod_mul (x := x) (a := 256 ^ n)]
    show x / 256 ^ n % 256 * _ + _ = _
    ring

namespace Machine

theorem hexValue_hexDigit : ∀ d < 16, hexValue (hexDigit d) = some d := by decide

/-- Reading n written digits appends them to the number already held (00_scope.md R12). -/
theorem readHex_hexDigits (n x acc : Nat) (rest : List Char) :
    readHex n acc (hexDigits n x ++ rest) = some (acc * 16 ^ n + x % 16 ^ n, rest) := by
  induction n generalizing acc with
  | zero => simp [readHex, hexDigits, Nat.mod_one]
  | succ n ih =>
    rw [hexDigits, List.cons_append, readHex, hexValue_hexDigit _ (Nat.mod_lt _ (by omega)), Option.bind_some, ih,
      pow_succ, Nat.mod_mul (x := x) (a := 16 ^ n)]
    congr 2
    ring

theorem afterPrefix_append (p cs : List Char) : afterPrefix p (p ++ cs) = some cs := by
  induction p with
  | nil => cases cs <;> rfl
  | cons a p ih => simp [afterPrefix, ih]

end Machine

end Sys2Proof
end

