-- ==== Sys2Proof/Tests/Slice0.lean ====
section
/-! SUPPORT. Tests of the model against the spec's own examples (spec/95_test_vectors.md and the worked examples of the
rules), the checks of WellFormed, and a witness for the hypotheses of each statement. -/

namespace Sys2Proof.Tests

open Sys2Proof.Machine

/-! ## WellFormed: what a check refuses -/

def tenBytes : List Byte := [0x01, 0x23, 0x45, 0x67, 0x89, 0xAB, 0xCD, 0xEF, 0x01, 0x23]
def eightBytes : List Byte := [0x01, 0x23, 0x45, 0x67, 0x89, 0xAB, 0xCD, 0xEF]

theorem test_wf_command : Instr.wf (.rsv3 5 6) = true := by decide
theorem test_wf_call : HostCall.wf ⟨0, tenBytes, eightBytes⟩ = true := by decide
theorem test_wf_refuses_short_key : HostCall.wf ⟨0, tenBytes.tail, eightBytes⟩ = false := by decide
theorem test_wf_refuses_long_block : HostCall.wf ⟨0, tenBytes, 0 :: eightBytes⟩ = false := by decide

/-! ## Decode: words written out from 30_encoding.md R71 and R72 -/

theorem test_decode_enc :
    decode (0b00#2 ++ 0x0123456789ABCDEF0123#80 ++ 0xFEDCBA9876543210#64) =
      .enc 0x0123456789ABCDEF0123 0xFEDCBA9876543210 := by decide
theorem test_decode_dec :
    decode 0x1800000000000000000018000000000000002#146 = .dec 0x80000000000000000001 0x8000000000000002 := by decide
theorem test_decode_rsv2 : decode 0x2000000000000000000010000000000000000#146 = .rsv2 1 0 := by decide
theorem test_decode_rsv3 : decode 0x3FFFFFFFFFFFFFFFFFFFF0000000000000001#146 = .rsv3 (-1) 1 := by decide
theorem test_encode_dec : encode (.dec (-1) 0xE72C46C0F5945049) = 0x1FFFFFFFFFFFFFFFFFFFFE72C46C0F5945049#146 := by decide
theorem test_table_word : decodeTableWord 152 (2 ^ 144 + 2 ^ 64 + 3) = some (.dec 1 3) := by decide
theorem test_table_word_refused : decodeTableWord 152 (2 ^ 146) = none := by decide
theorem test_bits_above_word : decodeNat (2 ^ 146) = .error .bitsAboveWord := by rfl
theorem test_call_bytes :
    decodeCall ⟨0b00#2, tenBytes, eightBytes⟩ = .ok (.enc 0x0123456789ABCDEF0123 0x0123456789ABCDEF) := by rfl
theorem test_call_wrong_length : decodeCall ⟨0b00#2, eightBytes, eightBytes⟩ = .error .wrongLength := by rfl
theorem test_bytes_opcode : decodeBytes (4 :: tenBytes ++ eightBytes) = .error .opcodeByte := by rfl

/-! ## Functions: 95_test_vectors.md sections 1.3, 2.2 to 2.5 -/

theorem test_sLayer_SL3 : sLayer 0x0123456789ABCDEF = 0xC56B90AD3EF84712 := by decide
theorem test_sLayerInv_SL4 : sLayerInv 0xFEDCBA9876543210 = 0xA970364BD21C8FE5 := by decide
theorem test_pLayer_PL14 : pLayer 0x0123456789ABCDEF = 0x00FF0F0F33335555 := by decide
theorem test_pLayerInv_PL14 : pLayerInv 0x0123456789ABCDEF = 0x3500350F35F035FF := by decide
theorem test_ksUpdate_KU5 : ksUpdate 0x0123456789ABCDEF0123 1#5 = 0x1024602468ACF135F9BD := by decide
theorem test_ksUpdate_KU7 : ksUpdate 0x00000000000000078000 5#5 = 0x20000000000000028000 := by decide
theorem test_schedule_last : readRk (keySchedule 0x0123456789ABCDEF0123) 31#5 = 0x5D37D6AE211CDCF5 := by decide +kernel
theorem test_encrypt_KAT2 : encrypt 0 (-1) = 0xE72C46C0F5945049 := by decide +kernel
theorem test_decrypt_D3 : decrypt 0 0 = 0xEF506CB600C2E95F := by decide +kernel

/-! ## One edge: 95_test_vectors.md section 2.7 -/

def inKeygen (c : Counter) (K : Key) : State := { State.reset with fsm := .keygen, ctr := c, kreg := K }
def inRnd (d : Direction) (c : Counter) (v : Block) : State :=
  { State.reset with fsm := .rnd, ctr := c, opR := d, st := v }
def inRndWith (d : Direction) (c : Counter) (v : Block) (r : RoundKey) : State :=
  { inRnd d c v with rk := Vector.replicate 32 r }

theorem test_step_enc :
    step (State.reset.withFetchWord 152 (2 ^ 64 * 0xF0000 + 7)) = .next (acceptLegal .enc 0xF0000 7 State.reset) := by rfl
theorem test_step_dec :
    step (State.reset.withFetchWord 152 (2 ^ 144 + 7)) = .next (acceptLegal .dec 0 7 State.reset) := by rfl
theorem test_exec_rsv2 : exec (.rsv2 1 2) State.reset = .next { State.reset with err := true, errCode := 1 } := by rfl
/-- C2: RSV3 right after a result. -/
theorem test_exec_rsv3 :
    exec (.rsv3 1 2) { State.reset with outValid := true, st := 5 } =
      .next { State.reset with err := true, errCode := 1, st := 5 } := by rfl
/-- After edge 2 of E1. -/
theorem test_keygen_edge :
    (keygenStep (inKeygen 2#5 0xC0000000000000008000)).kreg = 0x50001800000000010000 := by decide
/-- Edge 33 of E1: round 1. -/
theorem test_round_edge : (rndStep (inRndWith .enc 1#5 0xFFFFFFFF00000000 0xC000000000000000)).st = 0x80FF00FFFF008000 := by decide +kernel
/-- Edge 63 of E1. -/
theorem test_whitening_edge :
    (rndStep (inRndWith .enc 31#5 0x38D2F04C34635345 0x6DAB31744F41D700)).blockOut = 0x5579C1387B228445 := by decide
/-- Edge 63 of D1: a true zero result. -/
theorem test_last_decryption_edge :
    (rndStep (inRnd .dec 0#5 0xFFFFFFFF00000000)).outputs false = ⟨true, false, true, 0, false, 0⟩ := by decide +kernel
theorem test_line_of_dec :
    assemble "DEC  key=0x0123456789abcdef0123, blk=0x0000000000000001".toList =
      some (.dec 0x0123456789ABCDEF0123 1) := by decide +kernel

theorem test_line_with_comment :
    assemble "RSV2 key=0x00000000000000000000, blk=0x0000000000000000    ; op = 0b10, reserved".toList = some (.rsv2 0 0) := by
  decide +kernel

/-! ## Witnesses: states and operands that meet the hypotheses of the statements, clause by clause -/

theorem reset_controlInv : ControlInv State.reset := ⟨by decide, by decide, by decide, by decide, by decide, by decide⟩

theorem inKeygen_controlInv : ControlInv (inKeygen 1#5 3) :=
  ⟨by decide, by decide, by decide, by decide, by decide, by decide⟩

/-- A power-up state: fsm = 0b11, a result flag, an error with a reserved code. -/
def powerUp : State :=
  { State.reset with fsm := .unused, ctr := 9#5, outValid := true, err := true, errCode := 3, inputs := [Ports.resetting] }

/-- An idle engine that presents a result and has a command, then a reset, then two quiet cycles coming. -/
def presenting : State :=
  { State.reset with
    outValid := true, st := 9, inputs := [Ports.present (.dec 1 2), Ports.resetting, Ports.quiet, Ports.quiet] }

theorem witness_DecoderSelectsByOpcodeField :
    (0x0000000000000000000000000000000000000#146).extractLsb' 144 2 = 0b00#2 ∧
    (0x1000000000000000000000000000000000000#146).extractLsb' 144 2 = 0b01#2 ∧
    (0x2000000000000000000000000000000000000#146).extractLsb' 144 2 = 0b10#2 ∧
    (0x3000000000000000000000000000000000000#146).extractLsb' 144 2 = 0b11#2 := by decide
theorem witness_HostBuffersAreMostSignificantByteFirst :
    (eightBytes.length = 8 ∧ 0 < eightBytes.length ∧ 7 < eightBytes.length) ∧
    (tenBytes.length = 10 ∧ 0 < tenBytes.length ∧ 9 < tenBytes.length) := by decide
theorem witness_HostCallsRoundTripOrAreRejected :
    ¬(tenBytes.tail.length = 10 ∧ eightBytes.length = 8) ∧ ¬(tenBytes.length = 10 ∧ tenBytes.length = 8) ∧
    ([] : List Byte).length ≠ 19 ∧ (tenBytes ++ eightBytes).length ≠ 19 := by decide
theorem witness_SubstitutionActsLaneByLaneAndChangesEveryLane : 0 < 16 ∧ 15 < 16 ∧ 0 < 4 ∧ 3 < 4 := by decide
theorem witness_PermutationMovesEachBit : 0 < 64 ∧ 63 < 64 := by decide
theorem witness_KeyUpdateBitMap :
    (79 < 80 ∧ 76 ≤ 79) ∧ ¬76 ≤ 75 ∧ ¬(15 ≤ 20 ∧ 20 ≤ 19) ∧ (15 ≤ 19 ∧ 19 ≤ 19) ∧ (15 ≤ 15 ∧ 15 ≤ 19) ∧
    ¬(15 ≤ 14 ∧ 14 ≤ 19) := by decide
theorem witness_FirstTwoRoundKeysDetermineTheKey :
    readRk (keySchedule 5) 0#5 = readRk (keySchedule 5) 0#5 ∧
    readRk (keySchedule 5) 1#5 = readRk (keySchedule 5) 1#5 := ⟨rfl, rfl⟩
theorem witness_ResetEdgeFromEveryState : powerUp.inputs = [Ports.resetting] ∧ Ports.resetting.rst = true := by decide
theorem witness_OneResetEdgeIsEnough :
    Ports.resetting.rst = true ∧ clockEdge Ports.resetting powerUp = .next (resetEdge powerUp) := ⟨rfl, rfl⟩
theorem witness_StepRunsThePresentedCommand :
    presenting.inputs = Ports.present (.dec 1 2) :: [Ports.resetting, Ports.quiet, Ports.quiet] ∧
    (Ports.present (.dec 1 2)).rst = false ∧ (Ports.present (.dec 1 2)).cmdValid = true ∧
    decode ((Ports.present (.dec 1 2)).cmdOp ++ (Ports.present (.dec 1 2)).keyIn ++
      (Ports.present (.dec 1 2)).blockIn) = .dec 1 2 := by decide
theorem witness_LegalCommandAcceptedInIdle : State.reset.fsm = .idle ∧ presenting.fsm = .idle := by decide
theorem witness_ReservedCommandRaisesIllegalOp : presenting.fsm = .idle := by decide
theorem witness_SecondIllegalOpChangesNothing :
    presenting.fsm = .idle ∧ exec (.rsv2 1 2) presenting = .next (raiseIllegalOp presenting) ∧
    exec (.rsv3 1 2) presenting = .next (raiseIllegalOp presenting) := ⟨rfl, rfl, rfl⟩
theorem witness_IdleEdgeWithoutCommandHolds :
    presenting.fsm = .idle ∧ Ports.quiet.rst = false ∧ Ports.quiet.cmdValid = false := by decide
theorem witness_KeygenEdge :
    ((inKeygen 31#5 1).fsm = .keygen ∧ (inKeygen 31#5 1).ctr ≠ 0#5 ∧ (inKeygen 31#5 1).ctr = 31#5) ∧
    ((inKeygen 1#5 1).fsm = .keygen ∧ (inKeygen 1#5 1).ctr ≠ 0#5 ∧ (inKeygen 1#5 1).ctr ≠ 31#5) ∧
    (Ports.present (.rsv2 0 0)).rst = false := by decide
theorem witness_EncryptionRoundEdge :
    (inRnd .enc 0#5 1).fsm = .rnd ∧ (inRnd .enc 0#5 1).opR = .enc ∧ (inRnd .enc 0#5 1).ctr ≠ 31#5 ∧
    (inRnd .enc 30#5 1).ctr ≠ 31#5 ∧ (Ports.present (.enc 0 0)).rst = false := by decide
theorem witness_CompletingEdges :
    ((inRnd .enc 31#5 1).fsm = .rnd ∧ (inRnd .enc 31#5 1).opR = .enc ∧ (inRnd .enc 31#5 1).ctr = 31#5) ∧
    ((inRnd .dec 0#5 1).fsm = .rnd ∧ (inRnd .dec 0#5 1).opR = .dec ∧ (inRnd .dec 0#5 1).ctr = 0#5) ∧
    Ports.quiet.rst = false := by decide
theorem witness_CompletingEdges_next :
    Completes (inRnd .dec 0#5 1) ∧ clockEdge Ports.quiet (inRnd .dec 0#5 1) = .next (rndStep (inRnd .dec 0#5 1)) :=
  ⟨⟨rfl, .inr ⟨rfl, rfl⟩⟩, rfl⟩
theorem witness_DecryptionUnwhiteningEdge :
    (inRnd .dec 31#5 1).fsm = .rnd ∧ (inRnd .dec 31#5 1).opR = .dec ∧ (inRnd .dec 31#5 1).ctr = 31#5 := by decide
theorem witness_DecryptionRoundEdge :
    ((inRnd .dec 30#5 1).fsm = .rnd ∧ (inRnd .dec 30#5 1).opR = .dec ∧ (inRnd .dec 30#5 1).ctr ≠ 31#5 ∧
      (inRnd .dec 30#5 1).ctr ≠ 0#5) ∧
    ((inRnd .dec 0#5 1).ctr ≠ 31#5 ∧ (inRnd .dec 0#5 1).ctr = 0#5) := by decide
theorem witness_BusyEngineSamplesOnlyReset :
    (inKeygen 1#5 1).fsm ≠ .idle ∧ powerUp.fsm ≠ .idle ∧ (Ports.present (.enc 0 0)).rst = false ∧
    Ports.quiet.rst = false ∧ presenting.fsm = .idle ∧ (Ports.present (.enc 0 0)).cmdValid = true := by decide
theorem witness_UnreachableControlStatesStop :
    Ports.quiet.rst = false ∧ powerUp.fsm = .unused ∧ (inKeygen 0#5 1).fsm = .keygen ∧ (inKeygen 0#5 1).ctr = 0#5 := by
  decide
theorem witness_CommandFrames :
    exec (.rsv2 1 2) presenting = .next (raiseIllegalOp presenting) ∧
    exec (.enc 1 2) presenting = .next (acceptLegal .enc 1 2 presenting) ∧
    exec (.dec 1 2) (inKeygen 1#5 1) = .next (keygenStep (inKeygen 1#5 1)) ∧
    exec (.enc 1 2) (inRnd .dec 31#5 1) = .next (rndStep (inRnd .dec 31#5 1)) ∧
    (Instr.rsv2 1 2).opcode.getLsbD 1 = true ∧ (Instr.enc 1 2).opcode.getLsbD 1 = false :=
  ⟨rfl, rfl, rfl, rfl, rfl, rfl⟩
/-- For OutValidChangesOnlyAtItsEdges, ErrorStatusChangesOnlyAtItsEdges and BusyChangesOnlyAtItsEdges: a reset edge, an
accepting edge of each kind, a completing edge and an edge of none of these. -/
theorem witness_StatusEdges :
    clockEdge Ports.resetting powerUp = .next (resetEdge powerUp) ∧
    (Accepts (Ports.present (.rsv3 1 2)) presenting ∧ (Ports.present (.rsv3 1 2)).cmdOp.getLsbD 1 = true ∧
      clockEdge (Ports.present (.rsv3 1 2)) presenting = .next (raiseIllegalOp presenting)) ∧
    (Accepts (Ports.present (.dec 1 2)) presenting ∧ (Ports.present (.dec 1 2)).cmdOp.getLsbD 1 = false ∧
      clockEdge (Ports.present (.dec 1 2)) presenting = .next (acceptLegal .dec 1 2 presenting)) ∧
    (Completes (inRnd .enc 31#5 1) ∧
      clockEdge Ports.quiet (inRnd .enc 31#5 1) = .next (rndStep (inRnd .enc 31#5 1))) ∧
    (¬Accepts Ports.quiet (inRnd .enc 30#5 1) ∧ ¬Completes (inRnd .enc 30#5 1) ∧
      clockEdge Ports.quiet (inRnd .enc 30#5 1) = .next (rndStep (inRnd .enc 30#5 1))) := by
  refine ⟨rfl, ⟨⟨rfl, rfl, rfl⟩, rfl, rfl⟩, ⟨⟨rfl, rfl, rfl⟩, rfl, rfl⟩, ⟨⟨rfl, .inl ⟨rfl, rfl⟩⟩, rfl⟩, ?_, ?_, rfl⟩
  · unfold Accepts
    decide
  · unfold Completes
    decide
theorem witness_OutputsHideKeysAndIntermediateStates :
    (inRnd .enc 3#5 1).fsm = (inRnd .dec 4#5 2).fsm ∧ (inRnd .enc 3#5 1).outValid = (inRnd .dec 4#5 2).outValid ∧
    (inRnd .enc 3#5 1).err = (inRnd .dec 4#5 2).err ∧ (inRnd .enc 3#5 1).errCode = (inRnd .dec 4#5 2).errCode ∧
    State.reset.outValid = false ∧ presenting.outValid = true := by decide
theorem witness_SequencingIsDataIndependent :
    (inRnd .dec 4#5 1).fsm ≠ .idle ∧ (inRnd .dec 4#5 2).fsm = (inRnd .dec 4#5 1).fsm ∧
    (inRnd .dec 4#5 2).ctr = (inRnd .dec 4#5 1).ctr ∧ (inRnd .dec 4#5 2).opR = (inRnd .dec 4#5 1).opR ∧
    clockEdge Ports.quiet (inRnd .dec 4#5 1) = .next (rndStep (inRnd .dec 4#5 1)) :=
  ⟨by decide, rfl, rfl, rfl, rfl⟩
theorem witness_EveryStepGoesOnAndKeepsTheControlInvariant : ControlInv (inKeygen 1#5 3) := inKeygen_controlInv
/-- For RegistersDuringACommand, NoResultBeforeTheCompletingEdge, EncCompletesWithTheCiphertext and
DecCompletesWithThePlaintext: an idle engine whose host drives commands but no reset. -/
theorem witness_WholeCommand :
    ({ State.reset with inputs := List.replicate 63 (Ports.present (.rsv2 1 2)) } : State).fsm = .idle ∧
    NoResetIn 63 { State.reset with inputs := List.replicate 63 (Ports.present (.rsv2 1 2)) } ∧
    NoResetIn 62 { State.reset with inputs := List.replicate 63 (Ports.present (.rsv2 1 2)) } ∧ 62 < 63 ∧ 63 ≤ 63 := by
  refine ⟨rfl, ?_, ?_, by decide, by decide⟩ <;> unfold NoResetIn <;> decide
theorem witness_BackToBackCommandIsAccepted :
    Completes (inRnd .enc 31#5 1) ∧ Ports.quiet.rst = false ∧
    clockEdge Ports.quiet (inRnd .enc 31#5 1) = .next (rndStep (inRnd .enc 31#5 1)) ∧
    (Ports.present (.dec 1 2)).rst = false ∧ (Ports.present (.dec 1 2)).cmdValid = true :=
  ⟨⟨rfl, .inl ⟨rfl, rfl⟩⟩, rfl, rfl, rfl, rfl⟩
theorem witness_IdleEngineHoldsItsStateAndResult :
    { presenting with inputs := [Ports.quiet, Ports.quiet] }.fsm = .idle ∧
    QuietIn 2 { presenting with inputs := [Ports.quiet, Ports.quiet] } := by
  refine ⟨rfl, ?_⟩
  unfold QuietIn
  decide
theorem witness_ResetDuringACommandAbortsIt :
    presenting.fsm = .idle ∧ 1 < 63 ∧ NoResetIn 1 presenting ∧
    presenting.inputs.drop 1 = Ports.resetting :: [Ports.quiet, Ports.quiet] ∧ Ports.resetting.rst = true ∧
    ∀ q ∈ [Ports.quiet, Ports.quiet].take 2, q.rst = false ∧ q.cmdValid = false := by
  refine ⟨rfl, by decide, ?_, rfl, rfl, by decide⟩
  unfold NoResetIn
  decide
theorem witness_HiddenStateNeverReachesAPort :
    ControlInv State.reset ∧ ControlInv { State.reset with kreg := 7, st := 5, opR := .dec } ∧
    SameIdleView State.reset { State.reset with kreg := 7, st := 5, opR := .dec } :=
  ⟨reset_controlInv, ⟨by decide, by decide, by decide, by decide, by decide, by decide⟩,
    ⟨rfl, rfl, rfl, rfl, by decide, rfl, rfl⟩⟩
theorem witness_TransactionCompletesAfterLatEdges :
    0 < 1 ∧ (⟨none, some 4, false, 0⟩ : TState).pending = none ∧ (Ports.present (.dec 1 2)).rst = false ∧
    (Ports.present (.dec 1 2)).cmdValid = true ∧ (Ports.present (.dec 1 2)).instr = legalCommand .dec 1 2 ∧
    (∀ q ∈ [Ports.quiet], q.rst = false) ∧ ([] : List Ports).length < 1 ∧ [Ports.quiet].length = 1 := by decide
theorem witness_ReferenceRefinesTransactionLevel : ControlInv (inKeygen 1#5 3) ∧ ControlInv State.reset :=
  ⟨inKeygen_controlInv, reset_controlInv⟩
theorem witness_HostRunReadsTheAnswer : ControlInv (inKeygen 1#5 3) ∧ ControlInv State.reset :=
  ⟨inKeygen_controlInv, reset_controlInv⟩

end Sys2Proof.Tests
end

section
/-! PROOFS. The statements of the family `00_scope.md`: the refinement of the transaction machine, the host calls, and
what the edge of a command leaves unchanged. -/

namespace Sys2Proof

/-! ## Host calls (20_memory.md section 2) -/

/-- A key buffer holds its key (20_memory.md R55). -/
@[simp] theorem keyOfBytes_bytesOfKey (k : Key) : keyOfBytes (bytesOfKey k) = k := by
  have hmod : k.toNat % 256 ^ 10 = k.toNat := Nat.mod_eq_of_lt k.isLt
  rw [keyOfBytes, bytesOfKey, natOfBytes_bytesOfNat, hmod, BitVec.ofNat_toNat, BitVec.setWidth_eq]

/-- A block buffer holds its block (20_memory.md R55). -/
@[simp] theorem blockOfBytes_bytesOfBlock (b : Block) : blockOfBytes (bytesOfBlock b) = b := by
  have hmod : b.toNat % 256 ^ 8 = b.toNat := Nat.mod_eq_of_lt b.isLt
  rw [blockOfBytes, bytesOfBlock, natOfBytes_bytesOfNat, hmod, BitVec.ofNat_toNat, BitVec.setWidth_eq]

@[simp] theorem bytesOfKey_length (k : Key) : (bytesOfKey k).length = 10 := bytesOfNat_length ..

@[simp] theorem bytesOfBlock_length (b : Block) : (bytesOfBlock b).length = 8 := bytesOfNat_length ..

/-- The buffer lengths of the source's precondition (00_scope.md R9). -/
theorem wf_iff (c : HostCall) : c.wf = true ↔ c.key.length = 10 ∧ c.block.length = 8 := by
  simp [HostCall.wf]

/-- A call is rejected exactly by its buffer lengths (60_exceptions.md R202). -/
theorem decodeCall_wrongLength (c : HostCall) (h : ¬(c.key.length = 10 ∧ c.block.length = 8)) :
    decodeCall c = .error .wrongLength := by
  rw [decodeCall, if_neg (mt (wf_iff c).mp h)]

theorem decodeCall_encodeCall (i : Instr) : decodeCall (encodeCall i) = .ok i := by
  have hwf : (encodeCall i).wf = true := (wf_iff _).mpr ⟨bytesOfKey_length _, bytesOfBlock_length _⟩
  rw [decodeCall, if_pos hwf]
  simp only [encodeCall, keyOfBytes_bytesOfKey, blockOfBytes_bytesOfBlock, commandOf_opcode]

/-- An opcode as a byte is at most 3 and loses no bit (30_encoding.md R71). -/
theorem opcode_byte (op : Opcode) :
    ¬3 < (op.setWidth 8 : Byte).toNat ∧ (op.setWidth 8 : Byte).setWidth 2 = op := by
  rcases opcode_cases op with rfl | rfl | rfl | rfl <;> decide

/-- The 19-byte form is the opcode byte before the two buffers of the host call. -/
theorem decodeBytes_encodeBytes (i : Instr) : decodeBytes (encodeBytes i) = .ok i := by
  obtain ⟨hle, hop⟩ := opcode_byte i.opcode
  have htake : (bytesOfKey i.key ++ bytesOfBlock i.block).take 10 = bytesOfKey i.key :=
    List.take_left' (bytesOfKey_length _)
  have hdrop : (bytesOfKey i.key ++ bytesOfBlock i.block).drop 10 = bytesOfBlock i.block :=
    List.drop_left' (bytesOfKey_length _)
  rw [encodeBytes, decodeBytes, if_neg hle, hop, htake, hdrop]
  exact decodeCall_encodeCall i

theorem decodeBytes_error_of_length (bs : List Byte) (h : bs.length ≠ 19) : ∃ e, decodeBytes bs = .error e := by
  cases bs with
  | nil => exact ⟨_, rfl⟩
  | cons op rest =>
    rw [decodeBytes]
    split
    · exact ⟨_, rfl⟩
    · refine ⟨_, decodeCall_wrongLength _ ?_⟩
      simp only [List.length_take, List.length_drop]
      simp only [List.length_cons] at h
      omega

/-- Settles O5, from the length and the value of what `bytesOfNat` writes. -/
theorem hostCallsRoundTripOrAreRejected : Obligations.HostCallsRoundTripOrAreRejected :=
  ⟨fun i => ⟨decodeCall_encodeCall i, decodeBytes_encodeBytes i⟩, decodeCall_wrongLength, decodeBytes_error_of_length⟩

namespace Machine

/-! ## What a command's edge leaves unchanged (43_orchestrator.md section 3) -/

/-- The accepting edge of a command by its opcode bit 1 (43_orchestrator.md R175, 60_exceptions.md R201). -/
theorem acceptance_of_opcode (i : Instr) (s : State) :
    (i.opcode.getLsbD 1 = true ∧ acceptance i s = raiseIllegalOp s) ∨
      (i.opcode.getLsbD 1 = false ∧ ∃ d K B, acceptance i s = acceptLegal d K B s) := by
  have hop : (Ports.present i).cmdOp = i.opcode := commandOp_pack ..
  have h := acceptance_cases (Ports.present i) s
  rwa [hop, instr_present] at h

/-- A KEYGEN step writes the entry of its counter (43_orchestrator.md R177). -/
theorem keygenStep_rk (s : State) :
    (keygenStep s).rk = writeRk s.rk s.ctr (roundKeyOf (ksUpdate s.kreg s.ctr)) := by
  unfold keygenStep
  split <;> rfl

theorem readRk_keygenStep_ne (s : State) (j : Counter) (h : j ≠ s.ctr) :
    readRk (keygenStep s).rk j = readRk s.rk j := by
  rw [keygenStep_rk, readRk_writeRk, if_neg h.symm]

theorem readRk_acceptLegal_ne (d : Direction) (K : Key) (B : Block) (s : State) (j : Counter) (h : j ≠ 0#5) :
    readRk (acceptLegal d K B s).rk j = readRk s.rk j := by
  rw [acceptLegal_rk, readRk_writeRk, if_neg h.symm]

/-- Settles O35: an edge is an accepting, a KEYGEN or a RND one, and each has its frame. -/
theorem commandFrames : Obligations.CommandFrames := by
  intro i s t h
  rw [exec_eq] at h
  rcases edgeWith_next _ s t h with ⟨hf, rfl⟩ | ⟨hf, -, rfl⟩ | ⟨hf, rfl⟩
  · rcases acceptance_of_opcode i s with ⟨hop, ht⟩ | ⟨hop, d, K, B, ht⟩
    · simp [ht, hf, hop]
    · rw [ht]
      exact ⟨rfl, fun _ hres => absurd (hop.symm.trans hres) Bool.false_ne_true,
        fun _ _ => readRk_acceptLegal_ne d K B s, by simp [hf], by simp [hf]⟩
  · obtain ⟨hst, hop, hov, herr, hcode, hin⟩ := keygenStep_frame s
    simpa [hst, hop, hov, herr, hcode, hin, hf] using readRk_keygenStep_ne s
  · obtain ⟨hkreg, hrk, hop, herr, hcode, hin⟩ := rndStep_frame s
    simp [hkreg, hrk, hop, herr, hcode, hin, hf]

/-! ## One edge from a state with the control invariant -/

theorem busy_eq_false (s : State) (h : s.fsm = .idle) : s.busy = false := by simp [State.busy, h]

theorem busy_eq_true (s : State) (h : s.fsm ≠ .idle) : s.busy = true := by simp [State.busy, h]

/-- In IDLE a presented command is accepted (43_orchestrator.md R175, 60_exceptions.md R201). -/
theorem clockEdge_idle_command (p : Ports) (s : State) (hr : p.rst = false) (hv : p.cmdValid = true)
    (hf : s.fsm = .idle) : clockEdge p s = .next (acceptance p.instr s) := by
  rw [clockEdge_command p s hr hv, exec_eq, edgeWith_idle _ s hf]

/-- In IDLE without a command nothing changes (43_orchestrator.md R176). -/
theorem clockEdge_idle_quiet (p : Ports) (s : State) (hr : p.rst = false) (hv : p.cmdValid = false)
    (hf : s.fsm = .idle) : clockEdge p s = .next s := by
  rw [clockEdge_quiet p s hr hv, edgeWith_idle _ s hf, hold]

/-- Outside IDLE the edge is the running operation's own step (43_orchestrator.md R186). -/
theorem clockEdge_busy (p : Ports) (s : State) (hI : ControlInv s) (hr : p.rst = false) (hf : s.fsm ≠ .idle) :
    clockEdge p s = .next (seqStep s) := by
  rw [clockEdge_notIdle p s hr hf, edgeWith_busy hold s (busy_eq_true s hf) hI.fsm_legal hI.keygen_ctr]

/-- No step of the running operation touches the error status (10_state.md R35). -/
theorem seqStep_err (s : State) : (seqStep s).err = s.err ∧ (seqStep s).errCode = s.errCode := by
  unfold seqStep
  cases s.fsm
  case keygen =>
    obtain ⟨-, -, -, herr, hcode, -⟩ := keygenStep_frame s
    exact ⟨herr, hcode⟩
  case rnd =>
    obtain ⟨-, -, -, herr, hcode, -⟩ := rndStep_frame s
    exact ⟨herr, hcode⟩
  all_goals exact ⟨rfl, rfl⟩

/-- The running operation's step completes the command, in IDLE with the counter 0 and the result valid, or goes on with
`out_valid` as it was (43_orchestrator.md R177 to R182). -/
theorem seqStep_cases (s : State) (hI : ControlInv s) (hf : s.fsm ≠ .idle) :
    ((seqStep s).fsm = .idle ∧ (seqStep s).ctr = 0#5 ∧ (seqStep s).outValid = true) ∨
      ((seqStep s).fsm ≠ .idle ∧ ((seqStep s).fsm = .keygen → (seqStep s).ctr ≠ 0#5) ∧
        (seqStep s).outValid = s.outValid) := by
  cases h : s.fsm
  case idle => exact absurd h hf
  case unused => exact absurd h hI.fsm_legal
  case keygen =>
    obtain ⟨-, -, hov, -⟩ := keygenStep_frame s
    rw [seqStep_keygen s h, keygenStep_fsm]
    by_cases hc : s.ctr = 31#5
    · simp [hc, hov]
    · simp [hc, h, hov, keygenStep_ctr s hc, counter_succ_ne_0 s.ctr hc]
  case rnd =>
    rw [seqStep_rnd s h]
    rcases rndStep_cases s h with ⟨-, hidle⟩ | ⟨-, hrnd, hov⟩
    · exact .inl hidle
    · exact .inr (by simp [hrnd, hov])

/-! ### The control invariant along an edge -/

theorem controlInv_resetEdge (s : State) : ControlInv (resetEdge s) where
  fsm_legal := by simp
  idle_ctr := by simp
  keygen_ctr := by simp
  busy_status := by simp
  one_status := by simp
  err_code := by simp

theorem controlInv_acceptLegal (d : Direction) (K : Key) (B : Block) (s : State) :
    ControlInv (acceptLegal d K B s) where
  fsm_legal := by simp
  idle_ctr := by simp
  keygen_ctr := by simp
  busy_status := by simp
  one_status := by simp
  err_code := by simp

theorem controlInv_raiseIllegalOp (s : State) (hI : ControlInv s) (hf : s.fsm = .idle) :
    ControlInv (raiseIllegalOp s) where
  fsm_legal := by simp [hf]
  idle_ctr := by simpa using hI.idle_ctr
  keygen_ctr := by simp [hf]
  busy_status := by simp [hf]
  one_status := by simp
  err_code := by simp

theorem controlInv_acceptance (i : Instr) (s : State) (hI : ControlInv s) (hf : s.fsm = .idle) :
    ControlInv (acceptance i s) := by
  rcases acceptance_of_opcode i s with ⟨-, h⟩ | ⟨-, d, K, B, h⟩ <;> rw [h]
  · exact controlInv_raiseIllegalOp s hI hf
  · exact controlInv_acceptLegal d K B s

theorem controlInv_seqStep (s : State) (hI : ControlInv s) (hf : s.fsm ≠ .idle) : ControlInv (seqStep s) := by
  obtain ⟨herr, hcode⟩ := seqStep_err s
  obtain ⟨hov0, herr0⟩ := hI.busy_status hf
  obtain ⟨-, -, hlegal⟩ := edgesLeft_seqStep s hf hI.fsm_legal
  have hcodes : (seqStep s).errCode = if (seqStep s).err then Config.errIllegalOp else Config.errNone := by
    rw [hcode, herr]
    exact hI.err_code
  rcases seqStep_cases s hI hf with ⟨hidle, hctr, -⟩ | ⟨hbusy, hctr, hov⟩
  · exact ⟨hlegal, fun _ => hctr, by simp [hidle], fun h => absurd hidle h, fun _ => herr.trans herr0, hcodes⟩
  · exact ⟨hlegal, fun h => absurd h hbusy, hctr, fun _ => ⟨hov.trans hov0, herr.trans herr0⟩,
      fun _ => herr.trans herr0, hcodes⟩

/-! ### Draining a command in progress (43_orchestrator.md R183, R184) -/

/-- The result a busy engine comes to is the one it comes to after its next step. -/
theorem drain_edgesLeft_seqStep (s : State) (hf : s.fsm ≠ .idle) (hu : s.fsm ≠ .unused) :
    drain (edgesLeft s) s = drain (edgesLeft (seqStep s)) (seqStep s) := by
  obtain ⟨hleft, -, -⟩ := edgesLeft_seqStep s hf hu
  rw [hleft, drain]

theorem inFlight_seqStep (d : Direction) (K : Key) (B : Block) (s : State) (h : InFlight d K B s) :
    InFlight d K B (seqStep s) := by
  cases hf : s.fsm
  case keygen => exact seqStep_keygen s hf ▸ inFlight_keygenStep d K B s hf h
  case rnd => exact seqStep_rnd s hf ▸ inFlight_rndStep d K B s hf h
  all_goals simpa [seqStep, hf] using h

theorem inFlight_not_unused (d : Direction) (K : Key) (B : Block) (s : State) (h : InFlight d K B s) :
    s.fsm ≠ .unused := by
  intro hu
  simp [InFlight, hu] at h

/-- A command in progress comes to its result at its completing edge (43_orchestrator.md R170, R171, R184). -/
theorem drain_inFlight (d : Direction) (K : Key) (B : Block) (n : Nat) (s : State) (h : InFlight d K B s)
    (hn : edgesLeft s = n) : (drain n s).st = cipher d B K := by
  have hu := inFlight_not_unused d K B s h
  induction n generalizing s with
  | zero =>
    have hidle : s.fsm = .idle := by
      by_contra hf
      have := (edgesLeft_seqStep s hf hu).1
      omega
    obtain ⟨-, hdata⟩ := h
    simp only [hidle] at hdata
    exact hdata.1
  | succ n ih =>
    have hf : s.fsm ≠ .idle := by
      intro hf
      simp [edgesLeft, hf] at hn
    obtain ⟨hleft, -, hu'⟩ := edgesLeft_seqStep s hf hu
    exact ih (seqStep s) (inFlight_seqStep d K B s h) (by omega) hu'

/-! ### The view of a state at transaction level (00_scope.md R18) -/

theorem view_idle (s : State) (h : s.fsm = .idle) :
    s.view = { pending := none, result := if s.outValid then some s.st else none,
               err := s.err, errCode := s.errCode } := by
  simp [State.view, busy_eq_false s h]

theorem view_busy (s : State) (hI : ControlInv s) (h : s.fsm ≠ .idle) :
    s.view = { pending := some { result := (drain (edgesLeft s) s).st, left := edgesLeft s }, result := none,
               err := s.err, errCode := s.errCode } := by
  obtain ⟨hov, -⟩ := hI.busy_status h
  simp [State.view, busy_eq_true s h, hov]

/-- The ports show the view (10_state.md R24, R34). -/
theorem outputs_view (s : State) (rst : Bool) : s.outputs rst = s.view.outputs rst := by
  have hb : s.busy = !(s.fsm == .idle) := rfl
  cases hf : s.fsm == .idle <;> cases hov : s.outValid <;>
    simp [State.outputs, TState.outputs, State.view, State.cmdReady, State.blockOut, hb, hf, hov]

theorem view_resetEdge (s : State) (lat : Nat) (p : Ports) (hr : p.rst = true) :
    (resetEdge s).view = s.view.edge lat p := by
  rw [view_idle _ (resetEdge_fsm s)]
  simp [TState.edge, hr]

/-- The accepting edge of a legal command starts it with its result and LAT = 63 (43_orchestrator.md R183). -/
theorem view_acceptLegal (d : Direction) (K : Key) (B : Block) (s : State) :
    (acceptLegal d K B s).view = .start Config.referenceLat (cipher d B K) := by
  have hleft : edgesLeft (acceptLegal d K B s) = Config.referenceLat := rfl
  rw [view_busy _ (controlInv_acceptLegal d K B s) (by simp), hleft,
    drain_inFlight d K B _ _ (inFlight_acceptLegal d K B s) hleft]
  rfl

theorem view_acceptance (i : Instr) (s : State) (hf : s.fsm = .idle) :
    (acceptance i s).view = s.view.accept Config.referenceLat i := by
  have hill : (raiseIllegalOp s).view =
      { s.view with result := none, err := true, errCode := Config.errIllegalOp } := by
    simp [view_idle, hf]
  cases i with
  | enc K B => exact view_acceptLegal .enc K B s
  | dec K C => exact view_acceptLegal .dec K C s
  | rsv2 K B => exact hill
  | rsv3 K B => exact hill

/-- A step of the running operation is an edge of the transaction machine, the completing one and the others
(43_orchestrator.md R182, R183). -/
theorem view_seqStep (s : State) (lat : Nat) (p : Ports) (hI : ControlInv s) (hr : p.rst = false)
    (hf : s.fsm ≠ .idle) : (seqStep s).view = s.view.edge lat p := by
  obtain ⟨hleft, hlast, -⟩ := edgesLeft_seqStep s hf hI.fsm_legal
  obtain ⟨herr, hcode⟩ := seqStep_err s
  have hdrain := drain_edgesLeft_seqStep s hf hI.fsm_legal
  rw [view_busy s hI hf]
  rcases seqStep_cases s hI hf with ⟨hidle, -, hov⟩ | ⟨hbusy, -, -⟩
  · have hone : edgesLeft s = 1 := hlast.mp hidle
    simp [view_idle _ hidle, hov, TState.edge, hr, hone, drain, herr, hcode]
  · have hmore : ¬edgesLeft s ≤ 1 := by
      have := mt hlast.mpr hbusy
      omega
    have hpred : edgesLeft s - 1 = edgesLeft (seqStep s) := by omega
    simp [view_busy _ (controlInv_seqStep s hI hf) hbusy, TState.edge, hr, hmore, hpred, hdrain, herr, hcode]

/-! The edge of the transaction machine in IDLE (60_exceptions.md R205). -/

theorem edge_view_idle_command (s : State) (lat : Nat) (p : Ports) (hr : p.rst = false) (hv : p.cmdValid = true)
    (hf : s.fsm = .idle) : s.view.edge lat p = s.view.accept lat p.instr := by
  simp [view_idle s hf, TState.edge, hr, hv]

theorem edge_view_idle_quiet (s : State) (lat : Nat) (p : Ports) (hr : p.rst = false) (hv : p.cmdValid = false)
    (hf : s.fsm = .idle) : s.view.edge lat p = s.view := by
  simp [view_idle s hf, TState.edge, hr, hv]

/-- Settles O53: the four kinds of edge (reset, acceptance, idle, the running operation's step) commute with the view. -/
theorem referenceRefinesTransactionLevel : Obligations.ReferenceRefinesTransactionLevel := by
  intro s p hI
  refine ⟨outputs_view s p.rst, ?_⟩
  rcases hr : p.rst with _ | _
  · by_cases hf : s.fsm = .idle
    · rcases hv : p.cmdValid with _ | _
      · exact ⟨s, clockEdge_idle_quiet p s hr hv hf, hI, (edge_view_idle_quiet s _ p hr hv hf).symm⟩
      · exact ⟨_, clockEdge_idle_command p s hr hv hf, controlInv_acceptance _ s hI hf,
          (view_acceptance _ s hf).trans (edge_view_idle_command s _ p hr hv hf).symm⟩
    · exact ⟨_, clockEdge_busy p s hI hr hf, controlInv_seqStep s hI hf, view_seqStep s _ p hI hr hf⟩
  · exact ⟨_, clockEdge_reset p s hr, controlInv_resetEdge s, view_resetEdge s _ p hr⟩

end Machine

end Sys2Proof
end

section
/-! PROOFS. The statements of the family `10_state.md`: the control invariant along every step, what the ports hide, the
status flags edge by edge, and the states and edges the rules of `10_state.md` name. -/

namespace Sys2Proof.Machine

/-! ## The control invariant and the view along a step (10_state.md R28, R36) -/

theorem controlInv_nextCycle (s : State) (hI : ControlInv s) : ControlInv s.nextCycle :=
  ⟨hI.fsm_legal, hI.idle_ctr, hI.keygen_ctr, hI.busy_status, hI.one_status, hI.err_code⟩

/-! The running operation samples no operand port, so the coming cycles do not matter to it (43_orchestrator.md R186). -/

theorem keygenStep_nextCycle (s : State) : keygenStep s.nextCycle = (keygenStep s).nextCycle := by
  by_cases hc : s.ctr = 31#5 <;> simp [keygenStep, State.nextCycle, hc]

theorem encStep_nextCycle (s : State) : encStep s.nextCycle = (encStep s).nextCycle := by
  by_cases hc : s.ctr = 31#5 <;> simp [encStep, complete, State.setOutValid, State.nextCycle, hc]

theorem decStep_nextCycle (s : State) : decStep s.nextCycle = (decStep s).nextCycle := by
  by_cases hc : s.ctr = 31#5
  · simp [decStep_first, State.nextCycle, hc]
  · by_cases h0 : s.ctr = 0#5
    · simp [decStep_last, complete, State.setOutValid, State.nextCycle, h0]
    · simp [decStep_round, State.nextCycle, hc, h0]

theorem rndStep_nextCycle (s : State) : rndStep s.nextCycle = (rndStep s).nextCycle := by
  cases ho : s.opR
  case enc => rw [rndStep_enc s ho, rndStep_enc s.nextCycle ho, encStep_nextCycle]
  case dec => rw [rndStep_dec s ho, rndStep_dec s.nextCycle ho, decStep_nextCycle]

theorem seqStep_nextCycle (s : State) : seqStep s.nextCycle = (seqStep s).nextCycle := by
  cases hf : s.fsm
  case keygen => rw [seqStep_keygen s hf, seqStep_keygen s.nextCycle hf, keygenStep_nextCycle]
  case rnd => rw [seqStep_rnd s hf, seqStep_rnd s.nextCycle hf, rndStep_nextCycle]
  all_goals simp [seqStep, hf]

theorem drain_nextCycle (n : Nat) (s : State) : drain n s.nextCycle = (drain n s).nextCycle := by
  induction n generalizing s with
  | zero => rfl
  | succ n ih => rw [drain, drain, seqStep_nextCycle, ih]

@[simp] theorem edgesLeft_nextCycle (s : State) : edgesLeft s.nextCycle = edgesLeft s := rfl

@[simp] theorem view_nextCycle (s : State) : s.nextCycle.view = s.view := by
  rw [State.view, State.view, drain_nextCycle]
  rfl

/-- A step is an edge of the transaction machine with the ports of the coming cycle (00_scope.md R18). -/
theorem step_view (s : State) (hI : ControlInv s) :
    ∃ t, step s = .next t ∧ ControlInv t ∧ t.view = s.view.edge Config.referenceLat s.ports := by
  obtain ⟨-, t, ht, hIt, hview⟩ := referenceRefinesTransactionLevel s.nextCycle s.ports (controlInv_nextCycle s hI)
  exact ⟨t, ht, hIt, hview.trans (by rw [view_nextCycle])⟩

/-- Settles O43, from the step seen at transaction level. -/
theorem everyStepGoesOnAndKeepsTheControlInvariant : Obligations.EveryStepGoesOnAndKeepsTheControlInvariant := by
  intro s hI
  obtain ⟨t, ht, hIt, -⟩ := step_view s hI
  exact ⟨t, ht, hIt⟩

/-- Settles O42: the reset state is the one a reset edge leaves it in. -/
theorem controlInvariantHoldsAtReset : Obligations.ControlInvariantHoldsAtReset :=
  controlInv_resetEdge State.reset

/-! ## What the ports hide (10_state.md R34, R39, R40) -/

/-- Two states after a reset edge that have the same coming inputs and that the transaction level does not tell apart,
whatever their registers hold. -/
structure SameView (s t : State) : Prop where
  left : ControlInv s
  right : ControlInv t
  inputs : s.inputs = t.inputs
  view : s.view = t.view

theorem sameView_of_sameIdleView (s t : State) (hs : ControlInv s) (ht : ControlInv t) (h : SameIdleView s t) :
    SameView s t where
  left := hs
  right := ht
  inputs := h.inputs
  view := by
    have hresult : (if s.outValid then some s.st else none) = if t.outValid then some t.st else none := by
      rw [← h.outValid]
      split
      · rw [h.result ‹_›]
      · rfl
    rw [view_idle s h.left_idle, view_idle t h.right_idle, hresult, h.err, h.errCode]

/-- The outputs are a function of the view, so the ports show the same. -/
theorem outputs_eq_of_sameView (s t : State) (h : SameView s t) (rst : Bool) : s.outputs rst = t.outputs rst := by
  rw [outputs_view s, outputs_view t, h.view]

/-- One step from each keeps two states alike. -/
theorem step_sameView (s t : State) (h : SameView s t) :
    ∃ u v, step s = .next u ∧ step t = .next v ∧ SameView u v := by
  obtain ⟨u, hu, hIu, hviewU⟩ := step_view s h.left
  obtain ⟨v, hv, hIv, hviewV⟩ := step_view t h.right
  have hports : s.ports = t.ports := by rw [State.ports, State.ports, h.inputs]
  exact ⟨u, v, hu, hv, hIu, hIv, by rw [step_inputs s u hu, step_inputs t v hv, h.inputs],
    by rw [hviewU, hviewV, h.view, hports]⟩

theorem stepsTo_sameView (n : Nat) (s t : State) (h : SameView s t) :
    ∃ u v, StepsTo n s u ∧ StepsTo n t v ∧ SameView u v := by
  induction n generalizing s t with
  | zero => exact ⟨s, t, rfl, rfl, h⟩
  | succ n ih =>
    obtain ⟨s', t', hs, ht, h'⟩ := step_sameView s t h
    obtain ⟨u, v, hu, hv, huv⟩ := ih s' t' h'
    exact ⟨u, v, ⟨s', hs, hu⟩, ⟨t', ht, hv⟩, huv⟩

/-- Settles O51: two runs stay alike at transaction level, and the ports show no more than that level. -/
theorem hiddenStateNeverReachesAPort : Obligations.HiddenStateNeverReachesAPort := by
  intro s t hs ht h n rst
  obtain ⟨u, v, hu, hv, huv⟩ := stepsTo_sameView n s t (sameView_of_sameIdleView s t hs ht h)
  exact ⟨u, v, hu, hv, outputs_eq_of_sameView u v huv rst⟩

theorem blockOut_of_noResult (s : State) (h : s.outValid = false) : s.blockOut = 0 := by simp [State.blockOut, h]

theorem blockOut_of_result (s : State) (h : s.outValid = true) : s.blockOut = s.st := by simp [State.blockOut, h]

/-- `block_out` depends on `out_valid`, and on ST only where that is 1 (10_state.md R34). -/
theorem blockOut_congr (s t : State) (hov : s.outValid = t.outValid) (hst : s.outValid = true → s.st = t.st) :
    s.blockOut = t.blockOut := by
  cases h : s.outValid
  case false => rw [blockOut_of_noResult s h, blockOut_of_noResult t (hov ▸ h)]
  case true => rw [blockOut_of_result s h, blockOut_of_result t (hov ▸ h), hst h]

/-- Settles O40, port by port. -/
theorem outputsHideKeysAndIntermediateStates : Obligations.OutputsHideKeysAndIntermediateStates := by
  refine ⟨fun s t rst hf hov hst herr hcode => ?_, blockOut_of_noResult, blockOut_of_result⟩
  simp only [State.outputs, State.cmdReady, State.busy, hf, hov, herr, hcode, blockOut_congr s t hov hst]

/-! ## The status flags edge by edge (10_state.md R32, R33, R35) -/

theorem busy_iff (s : State) : s.busy = true ↔ s.fsm ≠ .idle := by simp [State.busy]

theorem not_completes_of_accepts (p : Ports) (s : State) (h : Accepts p s) : ¬Completes s := by
  obtain ⟨-, -, hidle⟩ := h
  simp [Completes, hidle]

theorem not_accepts_of_busy (p : Ports) (s : State) (h : s.fsm ≠ .idle) : ¬Accepts p s :=
  fun ⟨_, _, hidle⟩ => h hidle

/-- The kinds of rising edge from s to t with ports p that the rules of the status flags tell apart. -/
inductive StatusEdge (p : Ports) (s t : State) : Prop
  /-- A reset edge (70_reset_and_hazards.md R230). -/
  | reset (hr : p.rst = true) (ht : t = resetEdge s)
  /-- The accepting edge of a reserved command (60_exceptions.md R201). -/
  | reserved (hr : p.rst = false) (ha : Accepts p s) (hop : p.cmdOp.getLsbD 1 = true) (ht : t = raiseIllegalOp s)
  /-- The accepting edge of a legal command (43_orchestrator.md R175). -/
  | legal (hr : p.rst = false) (ha : Accepts p s) (hop : p.cmdOp.getLsbD 1 = false) (d : Direction) (K : Key)
      (B : Block) (ht : t = acceptLegal d K B s)
  /-- A completing edge (43_orchestrator.md R182). -/
  | completing (hr : p.rst = false) (ha : ¬Accepts p s) (hc : Completes s) (hbusy : t.busy = false)
      (hov : t.outValid = true) (herr : t.err = s.err ∧ t.errCode = s.errCode)
  /-- Any other edge (43_orchestrator.md R176 to R181). -/
  | other (hr : p.rst = false) (ha : ¬Accepts p s) (hc : ¬Completes s) (hbusy : t.busy = s.busy)
      (hov : t.outValid = s.outValid) (herr : t.err = s.err ∧ t.errCode = s.errCode)

theorem statusEdge_keygenStep (p : Ports) (s : State) (hr : p.rst = false) (hf : s.fsm = .keygen) :
    StatusEdge p s (keygenStep s) := by
  obtain ⟨-, -, hov, herr, hcode, -⟩ := keygenStep_frame s
  have hbusy : (keygenStep s).busy = s.busy := by
    rw [State.busy, State.busy, keygenStep_fsm, hf]
    split <;> rfl
  exact .other hr (not_accepts_of_busy p s (by simp [hf])) (by simp [Completes, hf]) hbusy hov ⟨herr, hcode⟩

theorem statusEdge_rndStep (p : Ports) (s : State) (hr : p.rst = false) (hf : s.fsm = .rnd) :
    StatusEdge p s (rndStep s) := by
  obtain ⟨-, -, -, herr, hcode, -⟩ := rndStep_frame s
  have ha : ¬Accepts p s := not_accepts_of_busy p s (by simp [hf])
  rcases rndStep_cases s hf with ⟨hc, hidle, -, hov⟩ | ⟨hc, hrnd, hov⟩
  · exact .completing hr ha hc (busy_eq_false _ hidle) hov ⟨herr, hcode⟩
  · exact .other hr ha hc (by rw [State.busy, State.busy, hrnd, hf]) hov ⟨herr, hcode⟩

/-- Every edge that answers next is of one of the kinds. -/
theorem statusEdge_of_clockEdge (p : Ports) (s t : State) (h : clockEdge p s = .next t) : StatusEdge p s t := by
  rcases clockEdge_next p s t h with ⟨hr, ht⟩ | ⟨hr, hv, hf, rfl⟩ | ⟨hr, hv, hf, rfl⟩ | ⟨hr, hf, -, rfl⟩ | ⟨hr, hf, rfl⟩
  · exact .reset hr ht
  · rcases acceptance_cases p s with ⟨hop, ht⟩ | ⟨hop, d, K, B, ht⟩
    · exact .reserved hr ⟨hr, hv, hf⟩ hop ht
    · exact .legal hr ⟨hr, hv, hf⟩ hop d K B ht
  · exact .other hr (by simp [Accepts, hv]) (by simp [Completes, hf]) rfl rfl ⟨rfl, rfl⟩
  · exact statusEdge_keygenStep p s hr hf
  · exact statusEdge_rndStep p s hr hf

/-- Settles O36, kind of edge by kind of edge. -/
theorem outValidChangesOnlyAtItsEdges : Obligations.OutValidChangesOnlyAtItsEdges := by
  intro s t p h
  cases statusEdge_of_clockEdge p s t h with
  | reset hr ht => simp [hr, ht]
  | reserved _ ha _ ht => simp [ha, ht, not_completes_of_accepts p s ha]
  | legal _ ha _ d K B ht => simp [ha, ht, not_completes_of_accepts p s ha]
  | completing hr ha hc _ hov _ => simp [hr, ha, hc, hov]
  | other hr ha hc _ hov _ => simp [hr, ha, hc, hov]

/-- Settles O37, kind of edge by kind of edge. -/
theorem errorStatusChangesOnlyAtItsEdges : Obligations.ErrorStatusChangesOnlyAtItsEdges := by
  intro s t p h
  cases statusEdge_of_clockEdge p s t h with
  | reset hr ht => simp [hr, ht, Accepts, Config.errNone]
  | reserved hr ha hop ht =>
    rw [hop, ht]
    simp [ha, hr, Config.errIllegalOp]
  | legal hr ha hop d K B ht =>
    rw [hop, ht]
    simp [ha, hr, Config.errNone]
  | completing hr ha _ _ _ herr => simp [hr, ha, herr]
  | other hr ha _ _ _ herr => simp [hr, ha, herr]

/-- Settles O38, kind of edge by kind of edge. -/
theorem busyChangesOnlyAtItsEdges : Obligations.BusyChangesOnlyAtItsEdges := by
  intro s t p h
  refine ⟨busy_iff s, ?_⟩
  cases statusEdge_of_clockEdge p s t h with
  | reset hr ht => simp [hr, ht, Accepts, State.busy]
  | reserved hr ha hop ht =>
    have ⟨_, _, hf⟩ := ha
    rw [hop, ht]
    simp [ha, hr, hf, State.busy]
  | legal hr ha hop d K B ht =>
    rw [hop, ht]
    simp [ha, hr, State.busy, not_completes_of_accepts p s ha]
  | completing hr ha hc hbusy _ _ => simp [hr, ha, hc, hbusy]
  | other hr ha hc hbusy _ _ => simp [hr, ha, hc, hbusy]

/-- `STATUS[5:0] = {err_code, err, out_valid, busy, cmd_ready}`, bit by bit (10_state.md R25). -/
theorem getLsbD_status (s : State) (rst : Bool) (i : Nat) :
    (s.status rst).getLsbD i =
      if i = 0 then s.cmdReady rst else if i = 1 then s.busy else if i = 2 then s.outValid
      else if i = 3 then s.err else s.errCode.getLsbD (i - 4) := by
  unfold State.status
  rw [BitVec.getLsbD_append, BitVec.getLsbD_append, BitVec.getLsbD_append, BitVec.getLsbD_append]
  rcases i with _ | _ | _ | _ | i <;> simp

/-- `cmd_ready` and `busy` are never both 1 (10_state.md R25). -/
theorem not_cmdReady_and_busy (s : State) (rst : Bool) : ¬(s.cmdReady rst = true ∧ s.busy = true) := by
  rintro ⟨hready, hbusy⟩
  obtain ⟨hidle, -⟩ : s.fsm = .idle ∧ rst = false := by simpa [State.cmdReady] using hready
  exact (busy_iff s).mp hbusy hidle

/-- Settles O39, field by field. -/
theorem statusVectorFields : Obligations.StatusVectorFields := by
  intro s rst
  have hready : (s.status rst).getLsbD 0 = s.cmdReady rst := getLsbD_status s rst 0
  have hbusy : (s.status rst).getLsbD 1 = s.busy := getLsbD_status s rst 1
  have hcode : (s.status rst).extractLsb' 4 2 = s.errCode := by
    apply BitVec.eq_of_getLsbD_eq
    intro i hi
    rw [BitVec.getLsbD_extractLsb', getLsbD_status]
    simp [hi, show 4 + i ≠ 0 ∧ 4 + i ≠ 1 ∧ 4 + i ≠ 2 ∧ 4 + i ≠ 3 by omega]
  refine ⟨hready, hbusy, getLsbD_status s rst 2, getLsbD_status s rst 3, hcode, ?_⟩
  rw [hready, hbusy]
  exact not_cmdReady_and_busy s rst

/-! ## No result before the completing edge (10_state.md R34; 70_reset_and_hazards.md R242) -/

/-- What a busy engine shows (10_state.md R24, R32 to R36). -/
theorem outputs_busy (s : State) (rst : Bool) (hI : ControlInv s) (hf : s.fsm ≠ .idle) :
    s.outputs rst =
      { cmdReady := false, busy := true, outValid := false, blockOut := 0, err := false, errCode := 0 } := by
  obtain ⟨hov, herr⟩ := hI.busy_status hf
  have hcode : s.errCode = 0 := by
    rw [hI.err_code, herr]
    rfl
  simp [State.outputs, State.cmdReady, hf, busy_eq_true s hf, blockOut_of_noResult s hov, hov, herr, hcode]

/-- The coming cycle is no reset edge, and neither are the ones after it. -/
theorem noResetIn_succ (n : Nat) (s t : State) (h : NoResetIn (n + 1) s) (ht : t.inputs = s.inputs.tail) :
    s.ports.rst = false ∧ NoResetIn n t := by
  unfold NoResetIn at h ⊢
  rw [ht, State.ports]
  cases hs : s.inputs with
  | nil => exact ⟨rfl, by simp⟩
  | cons p ps =>
    rw [hs, List.take_succ_cons, List.forall_mem_cons] at h
    exact h

theorem busy_of_edgesLeft (s : State) (h : edgesLeft s ≠ 0) : s.fsm ≠ .idle := by
  intro hf
  simp [edgesLeft, hf] at h

/-- n edges without reset bring a command in progress n edges nearer its completing edge (43_orchestrator.md R183). -/
theorem stepsTo_edgesLeft (n : Nat) (s : State) (hI : ControlInv s) (hn : n ≤ edgesLeft s) (hr : NoResetIn n s) :
    ∃ u, StepsTo n s u ∧ ControlInv u ∧ edgesLeft u + n = edgesLeft s := by
  induction n generalizing s with
  | zero => exact ⟨s, rfl, hI, rfl⟩
  | succ n ih =>
    have hf : s.fsm ≠ .idle := busy_of_edgesLeft s (by omega)
    have hI' := controlInv_nextCycle s hI
    obtain ⟨hleft, -, -⟩ := edgesLeft_seqStep s.nextCycle hf hI'.fsm_legal
    rw [edgesLeft_nextCycle] at hleft
    obtain ⟨hrst, -⟩ := noResetIn_succ n s s.nextCycle hr rfl
    have hstep : step s = .next (seqStep s.nextCycle) := clockEdge_busy s.ports s.nextCycle hI' hrst hf
    obtain ⟨-, hrest⟩ := noResetIn_succ n s (seqStep s.nextCycle) hr (step_inputs s _ hstep)
    obtain ⟨u, hu, hIu, hleftU⟩ := ih _ (controlInv_seqStep s.nextCycle hI' hf) (by omega) hrest
    exact ⟨u, ⟨_, hstep, hu⟩, hIu, by omega⟩

/-- A legal command in IDLE is accepted (43_orchestrator.md R175). -/
theorem exec_legalCommand (d : Direction) (K : Key) (B : Block) (s : State) (hf : s.fsm = .idle) :
    exec (legalCommand d K B) s = .next (acceptLegal d K B s) := by
  rw [exec_eq, edgeWith_idle _ s hf]
  cases d <;> rfl

/-- Settles O47: before edge 63 some edge is left, so the engine is busy. -/
theorem noResultBeforeTheCompletingEdge : Obligations.NoResultBeforeTheCompletingEdge := by
  intro d K B s n rst hf hn hr
  have hleft : edgesLeft (acceptLegal d K B s) = 63 := rfl
  obtain ⟨u, hu, hIu, hleftU⟩ :=
    stepsTo_edgesLeft n (acceptLegal d K B s) (controlInv_acceptLegal d K B s) (by omega) hr
  exact ⟨_, u, exec_legalCommand d K B s hf, hu, outputs_busy u rst hIu (busy_of_edgesLeft u (by omega))⟩

/-! ## The reset state, the presented command, the unreachable control states -/

/-- Settles O20, value by value. -/
theorem resetStateHasTheStatedValues : Obligations.ResetStateHasTheStatedValues :=
  ⟨rfl, rfl, rfl, rfl, rfl, rfl, rfl, rfl, blockOut_of_noResult State.reset rfl, rfl⟩

/-- Where a command is presented, the step is its meaning (10_state.md R31). -/
theorem step_presented (s : State) (p : Ports) (ps : List Ports) (hs : s.inputs = p :: ps) (hr : p.rst = false)
    (hv : p.cmdValid = true) : step s = exec p.instr { s with inputs := ps } := by
  rw [step_cons s p ps hs, clockEdge_command p _ hr hv]

/-- The word of a command, read as the table reads it, puts the command on the ports (30_encoding.md R71). -/
theorem withFetchWord_encode (s : State) (i : Instr) :
    s.withFetchWord 152 (encode i).toNat = s.drive (Ports.present i) := by
  have hlt : (encode i).toNat < 2 ^ 152 := (encode i).isLt.trans (by decide)
  rw [State.withFetchWord, tableWord, Nat.mod_eq_of_lt hlt, BitVec.ofNat_toNat, BitVec.setWidth_eq, Ports.present]

/-- Settles O23, for any ports and for those of a fetched word. -/
theorem stepRunsThePresentedCommand : Obligations.StepRunsThePresentedCommand := by
  constructor
  · intro s p ps i hs hr hv hi
    have hinstr : p.instr = i := hi
    rw [step_presented s p ps hs hr hv, hinstr]
  · intro s i
    rw [withFetchWord_encode, step_presented _ _ _ (drive_inputs s _) rfl rfl, instr_present]
    rfl

/-- An edge without reset is an edge by control state, whatever it does in IDLE (60_exceptions.md R205). -/
theorem clockEdge_eq_edgeWith (p : Ports) (s : State) (hr : p.rst = false) : ∃ f, clockEdge p s = edgeWith f s := by
  cases hv : p.cmdValid
  case false => exact ⟨hold, clockEdge_quiet p s hr hv⟩
  case true => exact ⟨acceptance p.instr, (clockEdge_command p s hr hv).trans (exec_eq _ s)⟩

theorem edgeWith_refused_iff (f : State → State) (s : State) :
    edgeWith f s = .refused .fsmUnused ↔ s.fsm = .unused := by
  unfold edgeWith
  cases s.fsm
  case keygen => by_cases hc : s.ctr = 0#5 <;> simp [hc]
  all_goals simp

theorem edgeWith_fault_iff (f : State → State) (s : State) :
    edgeWith f s = .fault .keygenAtZero ↔ s.fsm = .keygen ∧ s.ctr = 0#5 := by
  unfold edgeWith
  cases s.fsm
  case keygen => by_cases hc : s.ctr = 0#5 <;> simp [hc]
  all_goals simp

/-- Settles O34: an edge without reset stops by its control state. -/
theorem unreachableControlStatesStop : Obligations.UnreachableControlStatesStop := by
  intro s p hr
  obtain ⟨f, hf⟩ := clockEdge_eq_edgeWith p s hr
  rw [hf]
  exact ⟨edgeWith_refused_iff f s, edgeWith_fault_iff f s⟩

end Sys2Proof.Machine
end

section
/-! PROOFS. The statement of the family `20_memory.md`: the byte order of the host's buffers. -/

namespace Sys2Proof

/-! ## Byte positions in a buffer (20_memory.md R55) -/

theorem natOfBytes_concat (bs : List Byte) (b : Byte) : natOfBytes (bs ++ [b]) = natOfBytes bs * 256 + b.toNat := by
  rw [natOfBytes, List.foldl_concat, natOfBytes]

/-- The last byte of a buffer is the number's lowest byte. -/
theorem bytesOfNat_succ_eq_concat (n x : Nat) :
    bytesOfNat (n + 1) x = bytesOfNat n (x / 256) ++ [BitVec.ofNat 8 x] := by
  induction n with
  | zero => simp [bytesOfNat]
  | succ n ih =>
    have hdiv : x / 256 ^ (n + 1) = x / 256 / 256 ^ n := by rw [Nat.div_div_eq_div_mul, pow_succ']
    rw [bytesOfNat, ih, hdiv, bytesOfNat, List.cons_append]

/-- A buffer is the bytes of the number it stands for: with `natOfBytes_bytesOfNat`, no buffer and no number is lost. -/
theorem bytesOfNat_natOfBytes (bs : List Byte) : bytesOfNat bs.length (natOfBytes bs) = bs := by
  induction bs using List.reverseRecOn with
  | nil => rfl
  | append_singleton bs b ih =>
    have hb : b.toNat < 256 := b.isLt
    have hdiv : (natOfBytes bs * 256 + b.toNat) / 256 = natOfBytes bs := by omega
    have hmod : BitVec.ofNat 8 (natOfBytes bs * 256 + b.toNat) = b := by
      apply BitVec.eq_of_toNat_eq
      rw [BitVec.toNat_ofNat]
      omega
    rw [List.length_append, List.length_singleton, natOfBytes_concat, bytesOfNat_succ_eq_concat, hdiv, hmod, ih]

theorem natOfBytes_mod (bs : List Byte) : natOfBytes bs % 256 ^ bs.length = natOfBytes bs := by
  rw [← natOfBytes_bytesOfNat, bytesOfNat_natOfBytes]

/-- A word of n bytes has room for the number of an n-byte buffer, so the buffer is recovered from the word. -/
theorem bytesOfNat_toNat_natOfBytes (n : Nat) (bs : List Byte) (h : bs.length = n) :
    bytesOfNat n (BitVec.ofNat (8 * n) (natOfBytes bs)).toNat = bs := by
  subst h
  have hpow : 2 ^ (8 * bs.length) = 256 ^ bs.length := pow_mul 2 8 _
  rw [BitVec.toNat_ofNat, hpow, natOfBytes_mod, bytesOfNat_natOfBytes]

theorem bytesOfKey_keyOfBytes (bs : List Byte) (h : bs.length = 10) : bytesOfKey (keyOfBytes bs) = bs :=
  bytesOfNat_toNat_natOfBytes 10 bs h

theorem bytesOfBlock_blockOfBytes (bs : List Byte) (h : bs.length = 8) : bytesOfBlock (blockOfBytes bs) = bs :=
  bytesOfNat_toNat_natOfBytes 8 bs h

theorem getElem?_bytesOfNat (n x j : Nat) (h : j < n) :
    (bytesOfNat n x)[j]? = some (BitVec.ofNat 8 (x / 256 ^ (n - 1 - j))) := by
  induction n generalizing j with
  | zero => omega
  | succ n ih =>
    cases j with
    | zero => rfl
    | succ j =>
      have hexp : n + 1 - 1 - (j + 1) = n - 1 - j := by omega
      rw [bytesOfNat, List.getElem?_cons_succ, ih j (by omega), hexp]

/-- Byte j of the n bytes of a word is the byte with n - 1 - j bytes below it. -/
theorem getElem?_bytesOfNat_toNat {w : Nat} (v : BitVec w) (n j : Nat) (h : j < n) :
    (bytesOfNat n v.toNat)[j]? = some (v.extractLsb' (8 * (n - 1 - j)) 8) := by
  have hpow : 2 ^ (8 * (n - 1 - j)) = 256 ^ (n - 1 - j) := pow_mul 2 8 _
  rw [getElem?_bytesOfNat n _ j h, BitVec.extractLsb', Nat.shiftRight_eq_div_pow, hpow]

theorem getElem?_bytesOfKey (k : Key) (j : Nat) (h : j < 10) :
    (bytesOfKey k)[j]? = some (k.extractLsb' (72 - 8 * j) 8) := by
  have hpos : 72 - 8 * j = 8 * (10 - 1 - j) := by omega
  rw [hpos]
  exact getElem?_bytesOfNat_toNat k 10 j h

theorem getElem?_bytesOfBlock (b : Block) (j : Nat) (h : j < 8) :
    (bytesOfBlock b)[j]? = some (b.extractLsb' (56 - 8 * j) 8) := by
  have hpos : 56 - 8 * j = 8 * (8 - 1 - j) := by omega
  rw [hpos]
  exact getElem?_bytesOfNat_toNat b 8 j h

/-- Settles O4: a buffer is the bytes of the word it stands for, and the bytes of a word stand at its byte positions. -/
theorem hostBuffersAreMostSignificantByteFirst : Obligations.HostBuffersAreMostSignificantByteFirst := by
  refine ⟨fun bs j h hlen => ?_, fun bs j h hlen => ?_, getElem?_bytesOfBlock⟩
  · have hbyte := getElem?_bytesOfBlock (blockOfBytes bs) j (hlen ▸ h)
    rw [bytesOfBlock_blockOfBytes bs hlen, List.getElem?_eq_getElem h] at hbyte
    exact (Option.some.inj hbyte).symm
  · have hbyte := getElem?_bytesOfKey (keyOfBytes bs) j (hlen ▸ h)
    rw [bytesOfKey_keyOfBytes bs hlen, List.getElem?_eq_getElem h] at hbyte
    exact (Option.some.inj hbyte).symm

end Sys2Proof
end

section
/-! PROOFS. The statements of the family `30_encoding.md`: command words and commands determine each other, the written
line of a command, and the host's RUN. -/

namespace Sys2Proof

/-! ## Command words (30_encoding.md R71, R72, R75) -/

/-- A command has the fields it is made of (30_encoding.md R72). -/
theorem commandOf_fields (op : Opcode) (k : Key) (b : Block) :
    (commandOf op k b).opcode = op ∧ (commandOf op k b).key = k ∧ (commandOf op k b).block = b := by
  rcases opcode_cases op with rfl | rfl | rfl | rfl <;> exact ⟨rfl, rfl, rfl⟩

/-- A command word is its three fields: no bit stands outside them (30_encoding.md R71). -/
theorem packCommand_fields (w : Command) : packCommand (commandOp w) (commandKey w) (commandBlock w) = w :=
  Machine.command_ofWord w

@[simp] theorem decode_encode (i : Instr) : decode (encode i) = i := by
  rw [encode, decode, commandOp_pack, commandKey_pack, commandBlock_pack, commandOf_opcode]

@[simp] theorem encode_decode (w : Command) : encode (decode w) = w := by
  obtain ⟨hop, hkey, hblock⟩ := commandOf_fields (commandOp w) (commandKey w) (commandBlock w)
  rw [decode, encode, hop, hkey, hblock, packCommand_fields]

/-- Every word, as a number, is in the decoder's range and decodes as itself (30_encoding.md R77). -/
theorem decodeNat_toNat (w : Command) : decodeNat w.toNat = .ok (decode w) := by
  rw [decodeNat, if_pos w.isLt, BitVec.ofNat_toNat, BitVec.setWidth_eq]

/-- The 152 bits of the table hold all 146 bits of a command word. -/
theorem decodeTableWord_toNat (w : Command) : decodeTableWord 152 w.toNat = some (decode w) := by
  have hlt : w.toNat < 2 ^ 152 := w.isLt.trans (by decide)
  rw [decodeTableWord, tableWord, Nat.mod_eq_of_lt hlt, decodeNat_toNat]
  rfl

/-- Settles O3: a command has the fields it is made of, and a word is its three fields. -/
theorem decodeAndEncodeAreInverse : Obligations.DecodeAndEncodeAreInverse :=
  ⟨fun i => ⟨decode_encode i, by rw [decodeTableWord_toNat, decode_encode]⟩, encode_decode⟩

/-- The decoder selects by the opcode field (30_encoding.md R75). -/
theorem decode_of_commandOp (w : Command) (op : Opcode) (h : commandOp w = op) :
    decode w = commandOf op (commandKey w) (commandBlock w) := by
  rw [decode, h]

/-- Settles O2, opcode by opcode. -/
theorem decoderSelectsByOpcodeField : Obligations.DecoderSelectsByOpcodeField := by
  intro w
  exact ⟨decode_of_commandOp w 0b00#2, decode_of_commandOp w 0b01#2, fun h => ⟨_, _, decode_of_commandOp w 0b10#2 h⟩,
    fun h => ⟨_, _, decode_of_commandOp w 0b11#2 h⟩⟩

namespace Machine

/-! ## Written lines (30_encoding.md R78) -/

/-- The digits of a word, read where nothing is read yet, are the word; the text after them stays (00_scope.md R12). -/
theorem readHex_word {w : Nat} (n : Nat) (v : BitVec w) (hw : w = 4 * n) (rest : List Char) :
    readHex n 0 (hexDigits n v.toNat ++ rest) = some (v.toNat, rest) := by
  have hpow : 2 ^ w = 16 ^ n := by
    rw [hw, pow_mul]
    norm_num
  have hlt : v.toNat < 16 ^ n := hpow ▸ v.isLt
  rw [readHex_hexDigits, Nat.mod_eq_of_lt hlt, Nat.zero_mul, Nat.zero_add]

/-- The operands of a line as `assemblyLine` writes them. -/
def operandText (k : Key) (b : Block) : List Char :=
  [' '] ++ (keyMark ++ (hexDigits 20 k.toNat ++ (blockMark ++ hexDigits 16 b.toNat)))

theorem assemblyLine_eq (i : Instr) : assemblyLine i = mnemonicOf i ++ operandText i.key i.block := by
  simp only [assemblyLine, operandText, List.append_assoc]

/-- Mark by mark and number by number, what is written is read back. -/
theorem readOperands_operandText (op : Opcode) (k : Key) (b : Block) :
    readOperands op (operandText k b) = some (commandOf op k b) := by
  have hspace : ∀ cs, (keyMark ++ cs).dropWhile (· = ' ') = keyMark ++ cs := fun _ => rfl
  have hkey := fun rest => readHex_word 20 k rfl rest
  have hblock : readHex 16 0 (hexDigits 16 b.toNat) = some (b.toNat, []) := by
    simpa using readHex_word 16 b rfl []
  simp only [readOperands, operandText, afterPrefix_append, Option.bind_some, hspace, hkey, hblock, BitVec.ofNat_toNat,
    BitVec.setWidth_eq]
  rfl

/-- A line that begins with the mnemonic of a command is read with that command's opcode: no mnemonic is the beginning of
another. -/
theorem assemble_mnemonic (i j : Instr) (cs : List Char) (h : readOperands i.opcode cs = some j) :
    assemble (mnemonicOf i ++ cs) = some j := by
  simp only [Instr.opcode, Config.opEnc, Config.opDec, Config.opRsv2, Config.opRsv3] at h
  cases i <;> simp [assemble, mnemonics, mnemonicOf, afterPrefix, h]

/-- Settles O6: the mnemonic gives the opcode, the operands give the key and the block. -/
theorem assemblyLineStandsForItsCommand : Obligations.AssemblyLineStandsForItsCommand := by
  intro i
  have hoperands : readOperands i.opcode (operandText i.key i.block) = some i := by
    rw [readOperands_operandText, commandOf_opcode]
  rw [assemblyLine_eq]
  exact assemble_mnemonic i i _ hoperands

/-- A line written as the line of a command has that command's word, and the word is that command (30_encoding.md R80). -/
theorem assemble_and_decode_of_line (cs : List Char) (i : Instr) (w : Command) (hline : cs = assemblyLine i)
    (hword : encode i = w) : (assemble cs).map encode = some w ∧ decode w = i := by
  subst hline hword
  exact ⟨by rw [assemblyLineStandsForItsCommand]; rfl, decode_encode i⟩

/-- Settles O1: each example is the line of its command, with that command's word. -/
theorem exampleLinesHaveTheirCommandWords : Obligations.ExampleLinesHaveTheirCommandWords := by
  obtain ⟨hencLine, hencWord⟩ := assemble_and_decode_of_line
    "ENC key=0x00000000000000000000, blk=0x0000000000000000".toList (.enc 0 0)
    0x0000000000000000000000000000000000000#146 (by decide) (by decide)
  obtain ⟨hdecLine, hdecWord⟩ := assemble_and_decode_of_line
    "DEC key=0xFFFFFFFFFFFFFFFFFFFF, blk=0xE72C46C0F5945049".toList (.dec 0xFFFFFFFFFFFFFFFFFFFF 0xE72C46C0F5945049)
    0x1FFFFFFFFFFFFFFFFFFFFE72C46C0F5945049#146 (by decide) (by decide)
  obtain ⟨hrsvLine, hrsvWord⟩ := assemble_and_decode_of_line
    "RSV2 key=0x00000000000000000000, blk=0x0000000000000000".toList (.rsv2 0 0)
    0x2000000000000000000000000000000000000#146 (by decide) (by decide)
  exact ⟨hencLine, hdecLine, hrsvLine, hencWord, hdecWord, hrsvWord⟩

/-! ## The host's RUN (30_encoding.md R79) -/

/-- The state a command in progress comes to at its completing edge; an idle engine's own state. -/
def settle (s : State) : State := drain (edgesLeft s) s

theorem settle_idle (s : State) (hf : s.fsm = .idle) : settle s = s := by simp [settle, edgesLeft, hf, drain]

theorem settle_seqStep (s : State) (hI : ControlInv s) (hf : s.fsm ≠ .idle) : settle (seqStep s) = settle s :=
  (drain_edgesLeft_seqStep s hf hI.fsm_legal).symm

/-- What holds of every idle engine, and of a busy one if it holds after the running operation's next step, holds of every
engine with the control invariant: each command completes (43_orchestrator.md R183). -/
theorem controlInv_induction {P : (s : State) → ControlInv s → Prop} (idle : ∀ s hI, s.fsm = .idle → P s hI)
    (busy : ∀ s hI (hf : s.fsm ≠ .idle), P (seqStep s) (controlInv_seqStep s hI hf) → P s hI)
    (s : State) (hI : ControlInv s) : P s hI := by
  induction hn : edgesLeft s generalizing s with
  | zero =>
    refine idle s hI (by_contra fun hf => ?_)
    obtain ⟨hleft, -, -⟩ := edgesLeft_seqStep s hf hI.fsm_legal
    omega
  | succ n ih =>
    have hf : s.fsm ≠ .idle := busy_of_edgesLeft s (by omega)
    obtain ⟨hleft, -, -⟩ := edgesLeft_seqStep s hf hI.fsm_legal
    exact busy s hI hf (ih (seqStep s) (controlInv_seqStep s hI hf) (by omega))

theorem settle_controlInv_and_idle (s : State) (hI : ControlInv s) : ControlInv (settle s) ∧ (settle s).fsm = .idle := by
  induction s, hI using controlInv_induction with
  | idle s hI hf => exact (settle_idle s hf).symm ▸ ⟨hI, hf⟩
  | busy s hI hf ih => exact settle_seqStep s hI hf ▸ ih

/-- The completing edge sets `out_valid` (43_orchestrator.md R182). -/
theorem settle_outValid (s : State) (hI : ControlInv s) (hf : s.fsm ≠ .idle) : (settle s).outValid = true := by
  induction s, hI using controlInv_induction with
  | idle s hI hidle => exact absurd hidle hf
  | busy s hI _ ih =>
    rw [← settle_seqStep s hI hf]
    rcases seqStep_cases s hI hf with ⟨hidle, -, hov⟩ | ⟨hbusy, -, -⟩
    · rw [settle_idle _ hidle, hov]
    · exact ih hbusy

/-- A command in progress leaves its result in ST (43_orchestrator.md R170, R171). -/
theorem settle_acceptLegal_st (d : Direction) (K : Key) (B : Block) (s : State) :
    (settle (acceptLegal d K B s)).st = cipher d B K :=
  drain_inFlight d K B _ _ (inFlight_acceptLegal d K B s) rfl

/-- No command has more than LAT edges left (43_orchestrator.md R183). -/
theorem edgesLeft_le_referenceLat (s : State) (hI : ControlInv s) : edgesLeft s ≤ Config.referenceLat := by
  have hctr : s.ctr.toNat < 32 := s.ctr.isLt
  rw [edgesLeft, Config.referenceLat]
  cases hf : s.fsm
  case keygen =>
    have hpos := counter_toNat_ne_0 s.ctr (hI.keygen_ctr hf)
    simp only
    omega
  case rnd => cases s.opR <;> simp only <;> omega
  all_goals simp

theorem cmdReady_idle (s : State) (hf : s.fsm = .idle) : s.cmdReady false = true := by simp [State.cmdReady, hf]

theorem cmdReady_busy (s : State) (hf : s.fsm ≠ .idle) : s.cmdReady false = false := by simp [State.cmdReady, hf]

/-- One turn of ISSUE and of WAIT beside a command in progress is that command's own step (43_orchestrator.md R186). -/
theorem issueFor_succ_busy (i : Instr) (n : Nat) (s : State) (hI : ControlInv s) (hf : s.fsm ≠ .idle) :
    issueFor i (n + 1) s = issueFor i n (seqStep s) := by
  rw [issueFor, cmdReady_busy s hf, clockEdge_busy _ s hI rfl hf]
  rfl

theorem waitFor_succ_busy (n : Nat) (s : State) (hI : ControlInv s) (hf : s.fsm ≠ .idle) :
    waitFor (n + 1) s = waitFor n (seqStep s) := by
  rw [waitFor, cmdReady_busy s hf, clockEdge_busy _ s hI rfl hf]
  rfl

theorem waitFor_idle (n : Nat) (s : State) (hf : s.fsm = .idle) : waitFor n s = .next s := by
  cases n with
  | zero => rfl
  | succ n => rw [waitFor, cmdReady_idle s hf, if_pos rfl]

theorem issueFor_succ_idle (i : Instr) (n : Nat) (s : State) (hf : s.fsm = .idle) :
    issueFor i (n + 1) s = .next (acceptance i s) := by
  rw [issueFor, cmdReady_idle s hf, if_pos rfl, clockEdge_idle_command _ s rfl rfl hf, instr_present]

/-- ISSUE lets a command in progress complete, then its own is accepted (30_encoding.md R79). -/
theorem issueFor_succ_eq (i : Instr) (s : State) (hI : ControlInv s) (n : Nat) (hn : edgesLeft s ≤ n) :
    issueFor i (n + 1) s = .next (acceptance i (settle s)) := by
  induction s, hI using controlInv_induction generalizing n with
  | idle s hI hf => rw [issueFor_succ_idle i n s hf, settle_idle s hf]
  | busy s hI hf ih =>
    obtain ⟨hleft, -, -⟩ := edgesLeft_seqStep s hf hI.fsm_legal
    obtain ⟨k, rfl⟩ : ∃ k, n = k + 1 := Nat.exists_eq_succ_of_ne_zero (by omega)
    rw [issueFor_succ_busy i _ s hI hf, ih k (by omega), settle_seqStep s hI hf]

/-- WAIT lets a command in progress complete (30_encoding.md R79). -/
theorem waitFor_eq (s : State) (hI : ControlInv s) (n : Nat) (hn : edgesLeft s ≤ n) :
    waitFor n s = .next (settle s) := by
  induction s, hI using controlInv_induction generalizing n with
  | idle s hI hf => rw [waitFor_idle n s hf, settle_idle s hf]
  | busy s hI hf ih =>
    obtain ⟨hleft, -, -⟩ := edgesLeft_seqStep s hf hI.fsm_legal
    obtain ⟨k, rfl⟩ : ∃ k, n = k + 1 := Nat.exists_eq_succ_of_ne_zero (by omega)
    rw [waitFor_succ_busy k s hI hf, ih k (by omega), settle_seqStep s hI hf]

/-- RUN is the acceptance of its command once the engine is idle, and then the command as a whole: the host's patience is
one edge more than LAT, so neither bound is reached (log entry 10). -/
theorem hostRun_eq (i : Instr) (s : State) (hI : ControlInv s) :
    hostRun i s = .next (settle (acceptance i (settle s))) := by
  obtain ⟨hIs, hidle⟩ := settle_controlInv_and_idle s hI
  have hIa : ControlInv (acceptance i (settle s)) := controlInv_acceptance i _ hIs hidle
  have hissue : HostAction.act (.issue i) s = .next (acceptance i (settle s)) :=
    issueFor_succ_eq i s hI _ (edgesLeft_le_referenceLat s hI)
  have hwait : HostAction.act .wait (acceptance i (settle s)) = .next (settle (acceptance i (settle s))) :=
    waitFor_eq _ hIa _ (Nat.le_succ_of_le (edgesLeft_le_referenceLat _ hIa))
  rw [hostRun, hissue, andThen, hwait]
  rfl

/-- READ where a result is presented (10_state.md R33, R35). -/
theorem read_of_result (s : State) (hI : ControlInv s) (hov : s.outValid = true) :
    s.read = { blockOut := s.st, outValid := true, err := false, errCode := 0 } := by
  have herr := hI.one_status hov
  have hcode : s.errCode = 0 := by
    rw [hI.err_code, herr]
    rfl
  rw [State.read, blockOut_of_result s hov, hov, herr, hcode]

theorem read_raiseIllegalOp (s : State) :
    (raiseIllegalOp s).read = { blockOut := 0, outValid := false, err := true, errCode := 1 } := by
  rw [State.read, blockOut_of_noResult _ (raiseIllegalOp_outValid s)]
  rfl

/-- RUN of a legal command reads its result (43_orchestrator.md R170, R171). -/
theorem hostRun_legal (d : Direction) (K : Key) (B : Block) (i : Instr) (s : State) (hI : ControlInv s)
    (hi : acceptance i = acceptLegal d K B) :
    ∃ u, hostRun i s = .next u ∧
      u.read = { blockOut := cipher d B K, outValid := true, err := false, errCode := 0 } := by
  have hIa := controlInv_acceptLegal d K B (settle s)
  obtain ⟨hIu, -⟩ := settle_controlInv_and_idle _ hIa
  have hov := settle_outValid _ hIa (by simp)
  refine ⟨_, hi ▸ hostRun_eq i s hI, ?_⟩
  rw [read_of_result _ hIu hov, settle_acceptLegal_st]

/-- RUN of a reserved command reads ILLEGAL_OP (60_exceptions.md R201). -/
theorem hostRun_reserved (i : Instr) (s : State) (hI : ControlInv s) (hi : acceptance i = raiseIllegalOp) :
    ∃ u, hostRun i s = .next u ∧ u.read = { blockOut := 0, outValid := false, err := true, errCode := 1 } := by
  obtain ⟨-, hidle⟩ := settle_controlInv_and_idle s hI
  refine ⟨_, hi ▸ hostRun_eq i s hI, ?_⟩
  rw [settle_idle (raiseIllegalOp (settle s)) hidle, read_raiseIllegalOp]

/-- Settles O54, command by command. -/
theorem hostRunReadsTheAnswer : Obligations.HostRunReadsTheAnswer := fun s K B hI =>
  ⟨hostRun_legal .enc K B _ s hI rfl, hostRun_legal .dec K B _ s hI rfl, hostRun_reserved (.rsv2 K B) s hI rfl,
    hostRun_reserved (.rsv3 K B) s hI rfl⟩

end Machine

end Sys2Proof
end

section
/-! PROOFS. The statements of the family `40_sbox.md`: the S-box tables, and the substitution layers lane by lane. What
holds of a nibble function holds of the layer made from it, so each law of the layers is one of the tables. -/

namespace Sys2Proof.Machine

/-! ## The tables (40_sbox.md R100 to R104) -/

/-- 40_sbox.md R102. -/
theorem sbox4Inv_sbox4 : Function.LeftInverse sbox4Inv sbox4 := by
  unfold Function.LeftInverse
  decide

/-- A left inverse on the finite type of nibbles is a right inverse (40_sbox.md R102). -/
theorem sbox4_sbox4Inv : Function.LeftInverse sbox4 sbox4Inv :=
  sbox4Inv_sbox4.rightInverse_of_card_le le_rfl

/-- No entry of the table is its own index (40_sbox.md R100). -/
theorem sbox4_ne_self : ∀ x : Nibble, sbox4 x ≠ x := by decide

/-- A fixed point of the inverse would be one of the S-box. -/
theorem sbox4Inv_ne_self (y : Nibble) : sbox4Inv y ≠ y := by
  intro hfix
  have hy : sbox4 (sbox4Inv y) = y := sbox4_sbox4Inv y
  rw [hfix] at hy
  exact sbox4_ne_self y hy

/-- Settles O7: the listed entries by evaluation, the inverse laws by the lemmas above. -/
theorem sBoxTablesAreTheListedOnesAndInverse : Obligations.SBoxTablesAreTheListedOnesAndInverse :=
  ⟨by decide, by decide, fun x => ⟨sbox4Inv_sbox4 x, sbox4_sbox4Inv x⟩⟩

/-! ## The layers (40_sbox.md R105 to R107) -/

/-- 40_sbox.md R105: bit n of lane j of the result is bit n of the nibble function of lane j. -/
theorem getLsbD_mapNibbles_lane (f : Nibble → Nibble) (v : Block) (j n : Nat) (hj : j < 16) (hn : n < 4) :
    (mapNibbles f v).getLsbD (4 * j + n) = (f (nib v j)).getLsbD n := by
  rw [← nib_mapNibbles f v j hj, getLsbD_nib]
  simp [hn]

/-- A nibble function without a fixed point changes every lane. -/
theorem nib_mapNibbles_ne (f : Nibble → Nibble) (hf : ∀ x, f x ≠ x) (v : Block) (j : Nat) (hj : j < 16) :
    nib (mapNibbles f v) j ≠ nib v j := by
  rw [nib_mapNibbles f v j hj]
  exact hf (nib v j)

/-- The layer of a left inverse undoes the layer, since it does so in every lane. -/
theorem mapNibbles_leftInverse (f g : Nibble → Nibble) (h : Function.LeftInverse g f) :
    Function.LeftInverse (mapNibbles g) (mapNibbles f) := by
  intro v
  apply block_eq_of_nib_eq
  intro j hj
  rw [nib_mapNibbles g _ j hj, nib_mapNibbles f v j hj, h (nib v j)]

/-- 40_sbox.md R107. -/
theorem sLayerInv_sLayer : Function.LeftInverse sLayerInv sLayer :=
  mapNibbles_leftInverse sbox4 sbox4Inv sbox4Inv_sbox4

/-- 40_sbox.md R107. -/
theorem sLayer_sLayerInv : Function.LeftInverse sLayer sLayerInv :=
  mapNibbles_leftInverse sbox4Inv sbox4 sbox4_sbox4Inv

/-- Settles O8: the lane's bits, then that neither table has a fixed point. -/
theorem substitutionActsLaneByLaneAndChangesEveryLane :
    Obligations.SubstitutionActsLaneByLaneAndChangesEveryLane := by
  intro v j hj
  refine ⟨fun n hn => ⟨?_, ?_⟩, ?_, ?_⟩
  · exact getLsbD_mapNibbles_lane sbox4 v j n hj hn
  · exact getLsbD_mapNibbles_lane sbox4Inv v j n hj hn
  · exact nib_mapNibbles_ne sbox4 sbox4_ne_self v j hj
  · exact nib_mapNibbles_ne sbox4Inv sbox4Inv_ne_self v j hj

/-- Settles O9: each layer is a left inverse of the other, so both are bijections. -/
theorem substitutionLayersAreInverse : Obligations.SubstitutionLayersAreInverse :=
  ⟨fun v => ⟨sLayerInv_sLayer v, sLayer_sLayerInv v⟩,
    ⟨sLayerInv_sLayer.injective, sLayer_sLayerInv.surjective⟩,
    ⟨sLayer_sLayerInv.injective, sLayerInv_sLayer.surjective⟩⟩

end Sys2Proof.Machine
end

section
/-! PROOFS. The statements of the family `41_key_schedule.md`. Each of the three steps of the key-register update has
its bit map and is injective; the update, and what the first two round keys say of the key, follow from these. -/

namespace Sys2Proof.Machine

/-! ## The three steps of an update (41_key_schedule.md R122 to R124) -/

/-- 41_key_schedule.md R123: bit j of the rotated register is bit (j + 19) mod 80 of the register. -/
theorem getLsbD_rotateLeft_keyRotate (reg : Key) (j : Nat) (hj : j < 80) :
    (reg.rotateLeft Config.keyRotate).getLsbD j = reg.getLsbD ((j + 19) % 80) := by
  rw [Config.keyRotate, BitVec.getLsbD_rotateLeft]
  by_cases hlow : j < 61
  · simp [hlow, show (j + 19) % 80 = 80 - 61 + j by omega]
  · simp [hlow, hj, show (j + 19) % 80 = j - 61 by omega]

/-- 41_key_schedule.md R123: `a[79:76] = reg[18:15]`. -/
theorem extractLsb'_top_rotateLeft (reg : Key) :
    (reg.rotateLeft Config.keyRotate).extractLsb' 76 4 = reg.extractLsb' 15 4 := by
  apply BitVec.eq_of_getLsbD_eq
  intro n hn
  rw [BitVec.getLsbD_extractLsb', BitVec.getLsbD_extractLsb', getLsbD_rotateLeft_keyRotate reg _ (by omega),
    show (76 + n + 19) % 80 = 15 + n by omega]

/-- 41_key_schedule.md R124: the S-box in bits 79..76, every other bit unchanged. -/
theorem getLsbD_substituteTop (a : Key) (j : Nat) :
    (substituteTop a).getLsbD j = if 76 ≤ j then (sbox4 (a.extractLsb' 76 4)).getLsbD (j - 76) else a.getLsbD j := by
  rw [substituteTop, BitVec.getLsbD_append]
  by_cases htop : 76 ≤ j
  · simp [htop, show ¬ j < 76 by omega]
  · simp [htop, show j < 76 by omega]

/-- 41_key_schedule.md R122: counter bit j - 15 is XORed into bit j; the counter has no bit past j = 19. -/
theorem getLsbD_xorCounter (b : Key) (i : Counter) (j : Nat) (hj : j < 80) :
    (xorCounter b i).getLsbD j = (b.getLsbD j ^^ (decide (15 ≤ j) && i.getLsbD (j - 15))) := by
  rw [xorCounter, BitVec.getLsbD_xor, BitVec.getLsbD_setWidth, BitVec.getLsbD_append]
  by_cases hlow : j < 15
  · simp [hlow, show ¬ 15 ≤ j by omega]
  · simp [hlow, hj, show 15 ≤ j by omega]

/-- Settles O13: the bit map of each step in turn. The S-box field 79..76 and the counter field 19..15 are disjoint, and
the rotation does not wrap below bit 61. -/
theorem keyUpdateBitMap : Obligations.KeyUpdateBitMap := by
  intro reg i j hj
  rw [ksUpdate, getLsbD_xorCounter _ i j hj, getLsbD_substituteTop, extractLsb'_top_rotateLeft,
    getLsbD_rotateLeft_keyRotate reg j hj]
  by_cases htop : 76 ≤ j
  · simp [htop, BitVec.getLsbD_of_ge i (j - 15) (by omega)]
  by_cases hctr : 15 ≤ j ∧ j ≤ 19
  · simp [htop, hctr, show (j + 19) % 80 = j + 19 by omega]
  have hnone : (decide (15 ≤ j) && i.getLsbD (j - 15)) = false := by
    by_cases hlow : 15 ≤ j
    · simp [BitVec.getLsbD_of_ge i (j - 15) (by omega)]
    · simp [hlow]
  simp [htop, hctr, hnone]

/-! ## The update is a bijection (41_key_schedule.md section 1) -/

/-- Bits of two keys that agree in a field. -/
theorem getLsbD_eq_of_extractLsb'_eq {K L : Key} {start len j : Nat}
    (h : K.extractLsb' start len = L.extractLsb' start len) (hstart : start ≤ j) (hlen : j < start + len) :
    K.getLsbD j = L.getLsbD j := by
  have hbit := congrArg (fun x => x.getLsbD (j - start)) h
  simpa [show j - start < len by omega, show start + (j - start) = j by omega] using hbit

theorem sbox4_injective : Function.Injective sbox4 := sbox4Inv_sbox4.injective

theorem rotateLeft_keyRotate_injective : Function.Injective (fun reg : Key => reg.rotateLeft Config.keyRotate) := by
  intro K L h
  apply BitVec.eq_of_getLsbD_eq
  intro k hk
  have hbit := congrArg (fun a : Key => a.getLsbD ((k + 61) % 80)) h
  simpa only [getLsbD_rotateLeft_keyRotate _ _ (Nat.mod_lt (k + 61) (by decide : 80 > 0)),
    show ((k + 61) % 80 + 19) % 80 = k by omega] using hbit

theorem substituteTop_injective : Function.Injective substituteTop := by
  intro a b h
  have hbit (j : Nat) := congrArg (fun x : Key => x.getLsbD j) h
  simp only [getLsbD_substituteTop] at hbit
  have htop : a.extractLsb' 76 4 = b.extractLsb' 76 4 := by
    apply sbox4_injective
    apply BitVec.eq_of_getLsbD_eq
    intro n hn
    simpa using hbit (76 + n)
  apply BitVec.eq_of_getLsbD_eq
  intro j hj
  by_cases hj' : 76 ≤ j
  · exact getLsbD_eq_of_extractLsb'_eq htop hj' hj
  · simpa [hj'] using hbit j

theorem xorCounter_injective (i : Counter) : Function.Injective (fun b => xorCounter b i) :=
  fun _ _ h => (BitVec.xor_left_inj _).mp h

/-- Settles O14: an injective map of the finite type of registers, being the composition of three injective steps. -/
theorem keyUpdateIsBijective : Obligations.KeyUpdateIsBijective := by
  intro i
  apply Function.Injective.bijective_of_finite
  exact (xorCounter_injective i).comp (substituteTop_injective.comp rotateLeft_keyRotate_injective)

/-! ## The schedule (41_key_schedule.md R120, R126, R127, R129) -/

/-- Settles O15: the registers are those of `keyRegAfter`. -/
theorem scheduleIteratesTheUpdate : Obligations.ScheduleIteratesTheUpdate :=
  fun K => ⟨keyRegAfter K, rfl, fun _ _ => rfl, readRk_keySchedule K⟩

theorem readRk_keySchedule_zero (K : Key) : readRk (keySchedule K) 0#5 = K.extractLsb' 16 64 :=
  readRk_keySchedule K 0#5

theorem readRk_keySchedule_one (K : Key) : readRk (keySchedule K) 1#5 = (ksUpdate K 1#5).extractLsb' 16 64 :=
  readRk_keySchedule K 1#5

/-- 41_key_schedule.md R129: bits 59..45 of a round key are the low 15 bits of the register before its update. -/
theorem extractLsb'_low_ksUpdate (reg : Key) (i : Counter) :
    ((ksUpdate reg i).extractLsb' 16 64).extractLsb' 45 15 = reg.extractLsb' 0 15 := by
  apply BitVec.eq_of_getLsbD_eq
  intro n hn
  have hbit := keyUpdateBitMap reg i (61 + n) (by omega)
  rw [if_neg (by omega), if_neg (by omega), show (61 + n + 19) % 80 = n by omega] at hbit
  simpa [hn, show 45 + n < 64 by omega, show 16 + (45 + n) = 61 + n by omega] using hbit

/-- 41_key_schedule.md R129: bits 63..60 of a round key are the S-box of bits 18..15 of the register before its
update. -/
theorem extractLsb'_top_ksUpdate (reg : Key) (i : Counter) :
    ((ksUpdate reg i).extractLsb' 16 64).extractLsb' 60 4 = sbox4 (reg.extractLsb' 15 4) := by
  apply BitVec.eq_of_getLsbD_eq
  intro n hn
  have hbit := keyUpdateBitMap reg i (76 + n) (by omega)
  rw [if_pos (by omega), show 76 + n - 76 = n by omega] at hbit
  simpa [hn, show 60 + n < 64 by omega, show 16 + (60 + n) = 76 + n by omega] using hbit

/-- A key is its fields 79..16, 18..15 and 14..0 (41_key_schedule.md R129). -/
theorem key_eq_of_fields {K L : Key} (hhigh : K.extractLsb' 16 64 = L.extractLsb' 16 64)
    (hmid : K.extractLsb' 15 4 = L.extractLsb' 15 4) (hlow : K.extractLsb' 0 15 = L.extractLsb' 0 15) : K = L := by
  apply BitVec.eq_of_getLsbD_eq
  intro j hj
  rcases Nat.lt_trichotomy j 15 with hlt | rfl | hgt
  · exact getLsbD_eq_of_extractLsb'_eq hlow (by omega) (by omega)
  · exact getLsbD_eq_of_extractLsb'_eq hmid (by omega) (by omega)
  · exact getLsbD_eq_of_extractLsb'_eq hhigh (by omega) (by omega)

/-- Settles O16: round key 0 is bits 79..16 of the key; round key 1 holds bits 14..0 and, through the injective S-box,
bits 18..15. -/
theorem firstTwoRoundKeysDetermineTheKey : Obligations.FirstTwoRoundKeysDetermineTheKey := by
  refine ⟨fun K => ⟨readRk_keySchedule_zero K, readRk_keySchedule_one K, ?_, ?_⟩, fun K L h0 h1 => ?_⟩
  · rw [readRk_keySchedule_one, extractLsb'_low_ksUpdate]
  · rw [readRk_keySchedule_one, extractLsb'_top_ksUpdate]
  rw [readRk_keySchedule_zero, readRk_keySchedule_zero] at h0
  rw [readRk_keySchedule_one, readRk_keySchedule_one] at h1
  have hmid := congrArg (BitVec.extractLsb' 60 4) h1
  have hlow := congrArg (BitVec.extractLsb' 45 15) h1
  rw [extractLsb'_top_ksUpdate, extractLsb'_top_ksUpdate] at hmid
  rw [extractLsb'_low_ksUpdate, extractLsb'_low_ksUpdate] at hlow
  exact key_eq_of_fields h0 (sbox4_injective hmid) hlow

end Sys2Proof.Machine
end

section
/-! PROOFS. The statements of the family `42_permutation.md`. P sends bit n of nibble m to bit m of quarter n; from this
closed form it is a bijection of the 64 positions, and each law of the layers is one of P, read bit by bit. -/

namespace Sys2Proof.Machine

/-! ## The position maps (42_permutation.md R140 to R144) -/

/-- 42_permutation.md R141, with the nibble m = i / 4 and its bit n = i % 4. -/
theorem permP_eq (i : Nat) (hi : i < 64) : permP i = 16 * (i % 4) + i / 4 := by
  unfold permP
  split <;> omega

theorem permP_lt (i : Nat) (hi : i < 64) : permP i < 64 := by
  rw [permP_eq i hi]
  omega

theorem permP_injOn (i j : Nat) (hi : i < 64) (hj : j < 64) (h : permP i = permP j) : i = j := by
  rw [permP_eq i hi, permP_eq j hj] at h
  omega

/-- 42_permutation.md R142: the search that defines PINV stops at i, the one position that P sends to `permP i`. -/
theorem permPInv_permP (i : Nat) (hi : i < 64) : permPInv (permP i) = i := by
  unfold permPInv
  cases hfind : (List.range 64).find? (fun k => permP k == permP i) with
  | none => simpa using List.find?_eq_none.mp hfind i (List.mem_range.mpr hi)
  | some k =>
    have hk : k < 64 := List.mem_range.mp (List.mem_of_find?_eq_some hfind)
    have himage : permP k = permP i := by simpa using List.find?_some hfind
    exact permP_injOn k i hk hi himage

/-- 42_permutation.md R142, the closed form of PINV: bit m of quarter n is the image of bit n of nibble m. -/
theorem permPInv_eq (j : Nat) (hj : j < 64) : permPInv j = 4 * (j % 16) + j / 16 := by
  have hsource : 4 * (j % 16) + j / 16 < 64 := by omega
  have himage : permP (4 * (j % 16) + j / 16) = j := by
    rw [permP_eq _ hsource]
    omega
  rw [← permPInv_permP _ hsource, himage]

theorem permPInv_lt (j : Nat) (hj : j < 64) : permPInv j < 64 := by
  rw [permPInv_eq j hj]
  omega

/-- 42_permutation.md R143: every position is in the image of P. -/
theorem permP_permPInv (j : Nat) (hj : j < 64) : permP (permPInv j) = j := by
  rw [permP_eq _ (permPInv_lt j hj), permPInv_eq j hj]
  omega

/-- 42_permutation.md R143: the positions that P sends to j are the one position PINV gives. -/
theorem filter_permP_eq (j : Nat) (hj : j < 64) :
    (List.range 64).filter (fun i => permP i = j) = [permPInv j] := by
  have hiff : ∀ i ∈ List.range 64, decide (permP i = j) = (i == permPInv j) := by
    intro i hi
    rw [Bool.eq_iff_iff, decide_eq_true_iff, beq_iff_eq]
    constructor
    · rintro rfl
      exact (permPInv_permP i (List.mem_range.mp hi)).symm
    · rintro rfl
      exact permP_permPInv j hj
  have hmem : permPInv j ∈ List.range 64 := List.mem_range.mpr (permPInv_lt j hj)
  rw [List.filter_congr hiff, List.filter_beq, List.count_eq_one_of_mem List.nodup_range hmem, List.replicate_one]

/-- Settles O10: the tables by evaluation, the laws from the closed forms of the two maps. -/
theorem positionMapsAreTheTabulatedOnes : Obligations.PositionMapsAreTheTabulatedOnes := by
  refine ⟨fun i hi => if_neg (by omega), rfl, by decide, fun m hm n hn => ⟨?_, ?_⟩, permPInv_permP, by decide,
    fun j hj => ?_, permPInv_permP 63 (by decide), fun j hj => ?_, by decide, rfl, rfl⟩
  · rw [permP_eq _ (by omega)]
    omega
  · rw [permPInv_eq _ (by omega)]
    omega
  · rw [permPInv_eq j (by omega)]
    omega
  · rw [filter_permP_eq j hj, List.length_singleton]

/-! ## The layers (42_permutation.md R145 to R147) -/

/-- A block written bit by bit at distinct positions holds each bit where it was written (42_permutation.md R145). -/
theorem getLsbD_scatterBits_of_injOn (p : Nat → Nat) (hp : ∀ i j, i < 64 → j < 64 → p i = p j → i = j)
    (bit : Nat → Bool) (i : Nat) (hi : i < 64) (hpi : p i < 64) : (scatterBits p bit).getLsbD (p i) = bit i := by
  rw [getLsbD_scatterBits p bit (p i) hpi, Bool.eq_iff_iff]
  simp only [List.any_eq_true, List.mem_range, Bool.and_eq_true, decide_eq_true_eq]
  constructor
  · rintro ⟨k, hk, himage, hbit⟩
    rwa [← hp k i hk hi himage]
  · exact fun hbit => ⟨i, hi, rfl, hbit⟩

/-- 42_permutation.md R145. -/
theorem getLsbD_pLayer_permP (v : Block) (i : Nat) (hi : i < 64) : (pLayer v).getLsbD (permP i) = v.getLsbD i :=
  getLsbD_scatterBits_of_injOn permP permP_injOn _ i hi (permP_lt i hi)

/-- 42_permutation.md R146. -/
theorem getLsbD_pLayerInv (v : Block) (i : Nat) (hi : i < 64) : (pLayerInv v).getLsbD i = v.getLsbD (permP i) :=
  getLsbD_scatterBits_of_injOn id (fun _ _ _ _ h => h) _ i hi hi

/-- Settles O11: both layers write distinct positions. -/
theorem permutationMovesEachBit : Obligations.PermutationMovesEachBit :=
  fun v i hi => ⟨getLsbD_pLayer_permP v i hi, getLsbD_pLayerInv v i hi⟩

/-- 42_permutation.md R147: a bit moved to P(i) is taken back to i. -/
theorem pLayerInv_pLayer : Function.LeftInverse pLayerInv pLayer := by
  intro v
  apply BitVec.eq_of_getLsbD_eq
  intro i hi
  rw [getLsbD_pLayerInv _ i hi, getLsbD_pLayer_permP v i hi]

/-- 42_permutation.md R147: every position is P(i) for some i, so every bit taken back to its i is moved to P(i)
again. -/
theorem pLayer_pLayerInv : Function.LeftInverse pLayer pLayerInv := by
  intro v
  apply BitVec.eq_of_getLsbD_eq
  intro j hj
  have hi : permPInv j < 64 := permPInv_lt j hj
  rw [← permP_permPInv j hj, getLsbD_pLayer_permP _ _ hi, getLsbD_pLayerInv v _ hi]

/-- Settles O12: each layer is a left inverse of the other. -/
theorem permutationLayersAreInverse : Obligations.PermutationLayersAreInverse :=
  fun v => ⟨pLayerInv_pLayer v, pLayer_pLayerInv v⟩

end Sys2Proof.Machine
end

section
/-! PROOFS. The statements of the family `43_orchestrator.md`: the rounds and the cipher, each rising edge of the
sequencing, and commands as a whole. -/

namespace Sys2Proof.Machine

/-! ## Rounds and cipher (43_orchestrator.md section 1) -/

/-- Adding a round key a second time removes it (43_orchestrator.md R160). -/
@[simp] theorem addRoundKey_addRoundKey (v : Block) (k : RoundKey) : addRoundKey (addRoundKey v k) k = v := by
  rw [addRoundKey, addRoundKey, BitVec.xor_assoc, BitVec.xor_self, BitVec.xor_zero]

/-- 43_orchestrator.md R166. -/
theorem decRound_encRound (v : Block) (k : RoundKey) : decRound (encRound v k) k = v := by
  rw [decRound, encRound, pLayerInv_pLayer, sLayerInv_sLayer, addRoundKey_addRoundKey]

/-- The other half of 43_orchestrator.md R166, which Encrypt after Decrypt needs. -/
theorem encRound_decRound (v : Block) (k : RoundKey) : encRound (decRound v k) k = v := by
  rw [encRound, decRound, addRoundKey_addRoundKey, sLayer_sLayerInv, pLayer_pLayerInv]

/-- n iterations of the loop of Decrypt undo the last n of the 31 of Encrypt (43_orchestrator.md R163, R164). -/
theorem decRounds_encRounds (rk : RoundKeyFile) (v : Block) (n : Nat) (hn : n ≤ 31) :
    decRounds rk (encRounds rk v 31) n = encRounds rk v (31 - n) := by
  induction n with
  | zero => rfl
  | succ n ih =>
    have hlast : 31 - n = 30 - n + 1 := by omega
    rw [decRounds, ih (by omega), hlast, encRounds, decRound_encRound, Nat.succ_sub_succ]

/-- n iterations of the loop of Encrypt undo the last n of the 31 of Decrypt (43_orchestrator.md R163, R164). -/
theorem encRounds_decRounds (rk : RoundKeyFile) (v : Block) (n : Nat) (hn : n ≤ 31) :
    encRounds rk (decRounds rk v 31) n = decRounds rk v (31 - n) := by
  induction n with
  | zero => rfl
  | succ n ih =>
    have hlast : 31 - n = 30 - n + 1 := by omega
    have hkey : 30 - (30 - n) = n := by omega
    rw [encRounds, ih (by omega), hlast, decRounds, hkey, encRound_decRound, Nat.succ_sub_succ]

theorem decrypt_encrypt (B : Block) (K : Key) : decrypt (encrypt B K) K = B := by
  rw [decrypt, encrypt, addRoundKey_addRoundKey, Config.numRounds, decRounds_encRounds _ _ 31 le_rfl, Nat.sub_self,
    encRounds]

theorem encrypt_decrypt (C : Block) (K : Key) : encrypt (decrypt C K) K = C := by
  rw [encrypt, decrypt, Config.numRounds, encRounds_decRounds _ _ 31 le_rfl, Nat.sub_self, decRounds,
    addRoundKey_addRoundKey]

/-- Settles O19: the rounds undo each other in reverse order, and a map with an inverse on both sides is a bijection. -/
theorem decryptAndEncryptAreInverse : Obligations.DecryptAndEncryptAreInverse :=
  ⟨decrypt_encrypt, encrypt_decrypt, fun K => Function.bijective_iff_has_inverse.mpr
    ⟨fun C => decrypt C K, fun B => decrypt_encrypt B K, fun C => encrypt_decrypt C K⟩⟩

/-- Settles O17, by the lemma on one round. -/
theorem decryptionRoundUndoesEncryptionRound : Obligations.DecryptionRoundUndoesEncryptionRound :=
  decRound_encRound

/-- The round of a value with itself: the layers act on 0 (43_orchestrator.md R161). -/
theorem encRound_self (k : RoundKey) : encRound k k = 0xFFFFFFFF00000000 := by
  have hzero : pLayer (sLayer 0) = 0xFFFFFFFF00000000 := by decide
  rw [encRound, addRoundKey, BitVec.xor_self]
  exact hzero

/-- Settles O18: the corner case of `decRound` is that of `encRound`, undone. -/
theorem roundCornerCases : Obligations.RoundCornerCases := by
  intro v k
  have hdec := decRound_encRound k k
  rw [encRound_self] at hdec
  exact ⟨BitVec.xor_zero, BitVec.xor_self, addRoundKey_addRoundKey v k, encRound_self k, hdec⟩

/-! ## One rising edge (43_orchestrator.md section 3) -/

theorem clockEdge_keygen (p : Ports) (s : State) (hr : p.rst = false) (hf : s.fsm = .keygen) (hc : s.ctr ≠ 0#5) :
    clockEdge p s = .next (keygenStep s) := by
  rw [clockEdge_notIdle p s hr (by simp [hf]), edgeWith_keygen hold s hf hc]

theorem clockEdge_rnd (p : Ports) (s : State) (hr : p.rst = false) (hf : s.fsm = .rnd) :
    clockEdge p s = .next (rndStep s) := by
  rw [clockEdge_notIdle p s hr (by simp [hf]), edgeWith_rnd hold s hf]

theorem clockEdge_rnd_enc (p : Ports) (s : State) (hr : p.rst = false) (hf : s.fsm = .rnd) (ho : s.opR = .enc) :
    clockEdge p s = .next (encStep s) := by
  rw [clockEdge_rnd p s hr hf, rndStep_enc s ho]

theorem clockEdge_rnd_dec (p : Ports) (s : State) (hr : p.rst = false) (hf : s.fsm = .rnd) (ho : s.opR = .dec) :
    clockEdge p s = .next (decStep s) := by
  rw [clockEdge_rnd p s hr hf, rndStep_dec s ho]

/-- Settles O24, for both directions. -/
theorem legalCommandAcceptedInIdle : Obligations.LegalCommandAcceptedInIdle :=
  fun s K B hf => ⟨exec_legalCommand .enc K B s hf, exec_legalCommand .dec K B s hf⟩

/-- Settles O27, by the rule of the quiet edge in IDLE. -/
theorem idleEdgeWithoutCommandHolds : Obligations.IdleEdgeWithoutCommandHolds :=
  fun s p hf hr hv => clockEdge_idle_quiet p s hr hv hf

/-- Settles O28: the last KEYGEN edge, where the direction gives the counter, and the others. -/
theorem keygenEdge : Obligations.KeygenEdge := by
  intro s p hf hc hr
  rw [clockEdge_keygen p s hr hf hc, keygenStep]
  constructor
  · intro hlast
    rw [if_pos hlast]
    cases ho : s.opR <;> rfl
  · intro hmore
    rw [if_neg hmore]
    rfl

/-- Settles O29, by the round of an encryption. -/
theorem encryptionRoundEdge : Obligations.EncryptionRoundEdge := by
  intro s p hf ho hc hr
  rw [clockEdge_rnd_enc p s hr hf ho, encStep_round s hc]
  rfl

/-- Settles O31, by the un-whitening of a decryption. -/
theorem decryptionUnwhiteningEdge : Obligations.DecryptionUnwhiteningEdge := by
  intro s p hf ho hc hr
  rw [clockEdge_rnd_dec p s hr hf ho, decStep_first s hc]
  rfl

/-- Settles O32: a round that is not the last, and round 0. -/
theorem decryptionRoundEdge : Obligations.DecryptionRoundEdge := by
  intro s p hf ho hc hr
  rw [clockEdge_rnd_dec p s hr hf ho]
  constructor
  · intro h0
    rw [decStep_round s hc h0]
    rfl
  · intro h0
    rw [decStep_last s h0, complete]
    simp only [h0]
    rfl

/-- A completing edge leaves the engine in IDLE with a result (43_orchestrator.md R182). -/
theorem idle_and_result_of_completes (p : Ports) (s t : State) (hc : Completes s) (hr : p.rst = false)
    (h : clockEdge p s = .next t) : t.fsm = .idle ∧ t.outValid = true := by
  have hf : s.fsm = .rnd := hc.1
  rw [clockEdge_rnd p s hr hf] at h
  cases h
  rcases rndStep_cases s hf with ⟨-, hidle, -, hov⟩ | ⟨hnot, -⟩
  · exact ⟨hidle, hov⟩
  · exact absurd hc hnot

/-- Settles O30: the two completing edges, and what the ports show of a result in IDLE. -/
theorem completingEdges : Obligations.CompletingEdges := by
  intro s p hf hr
  refine ⟨fun ho hc => ?_, fun ho hc => ?_, fun t hc h => ?_⟩
  · rw [clockEdge_rnd_enc p s hr hf ho, encStep_last s hc]
    rfl
  · rw [clockEdge_rnd_dec p s hr hf ho, decStep_last s hc]
    rfl
  · obtain ⟨hidle, hov⟩ := idle_and_result_of_completes p s t hc hr h
    exact ⟨busy_eq_false t hidle, cmdReady_idle t hidle, blockOut_of_result t hov⟩

/-- Settles O33: outside IDLE every edge without reset is the running operation's own. -/
theorem busyEngineSamplesOnlyReset : Obligations.BusyEngineSamplesOnlyReset := by
  refine ⟨fun s p q hf hp hq => ?_, fun s p i hf hr => ?_, fun s p hf hr hv => ?_⟩
  · rw [clockEdge_notIdle p s hp hf, clockEdge_notIdle q s hq hf]
  · rw [clockEdge_notIdle p s hr hf, exec_eq, edgeWith_notIdle _ hold s hf]
  · exact ⟨clockEdge_command p s hr hv, hr ▸ cmdReady_idle s hf⟩

/-- Settles O48: the engine is in IDLE after a completing edge, and both kinds of acceptance clear `out_valid`. -/
theorem backToBackCommandIsAccepted : Obligations.BackToBackCommandIsAccepted := by
  intro s t p q hc hr h
  obtain ⟨hidle, -⟩ := idle_and_result_of_completes p s t hc hr h
  refine ⟨cmdReady_idle t hidle, fun hq hv => ?_⟩
  have haccept := clockEdge_idle_command q t hq hv hidle
  refine ⟨_, haccept, clockEdge_command q t hq hv ▸ haccept, ?_⟩
  rcases acceptance_cases q t with ⟨-, ht⟩ | ⟨-, d, K, B, ht⟩ <;> rw [ht]
  · exact raiseIllegalOp_outValid t
  · exact acceptLegal_outValid d K B t

/-! ## The sequencing and the data (43_orchestrator.md R185) -/

/-- Two states in which the sequencing stands at the same point, whatever the data registers and the status hold. -/
structure SameControl (s t : State) : Prop where
  fsm : s.fsm = t.fsm
  ctr : s.ctr = t.ctr
  opR : s.opR = t.opR

theorem sameControl_keygenStep (s t : State) (h : SameControl s t) : SameControl (keygenStep s) (keygenStep t) := by
  obtain ⟨-, hopS, -⟩ := keygenStep_frame s
  obtain ⟨-, hopT, -⟩ := keygenStep_frame t
  refine ⟨by rw [keygenStep_fsm, keygenStep_fsm, h.ctr, h.fsm], ?_, by rw [hopS, hopT, h.opR]⟩
  by_cases hc : t.ctr = 31#5
  · rw [keygenStep_ctr_last t hc, keygenStep_ctr_last s (h.ctr.trans hc), h.opR]
  · rw [keygenStep_ctr t hc, keygenStep_ctr s (h.ctr ▸ hc), h.ctr]

theorem sameControl_complete (s t : State) (h : s.opR = t.opR) : SameControl (complete s) (complete t) :=
  ⟨rfl, rfl, h⟩

theorem sameControl_encStep (s t : State) (h : SameControl s t) : SameControl (encStep s) (encStep t) := by
  by_cases hc : t.ctr = 31#5
  · rw [encStep_last t hc, encStep_last s (h.ctr.trans hc)]
    exact sameControl_complete _ _ h.opR
  · rw [encStep_round t hc, encStep_round s (h.ctr ▸ hc)]
    exact ⟨h.fsm, congrArg (· + 1#5) h.ctr, h.opR⟩

theorem sameControl_decStep (s t : State) (h : SameControl s t) : SameControl (decStep s) (decStep t) := by
  by_cases hc : t.ctr = 31#5
  · rw [decStep_first t hc, decStep_first s (h.ctr.trans hc)]
    exact ⟨h.fsm, rfl, h.opR⟩
  · by_cases h0 : t.ctr = 0#5
    · rw [decStep_last t h0, decStep_last s (h.ctr.trans h0)]
      exact sameControl_complete _ _ h.opR
    · rw [decStep_round t hc h0, decStep_round s (h.ctr ▸ hc) (h.ctr ▸ h0)]
      exact ⟨h.fsm, congrArg (· - 1#5) h.ctr, h.opR⟩

theorem sameControl_rndStep (s t : State) (h : SameControl s t) : SameControl (rndStep s) (rndStep t) := by
  cases ho : t.opR with
  | enc =>
    rw [rndStep_enc t ho, rndStep_enc s (h.opR.trans ho)]
    exact sameControl_encStep s t h
  | dec =>
    rw [rndStep_dec t ho, rndStep_dec s (h.opR.trans ho)]
    exact sameControl_decStep s t h

/-- Settles O41: the edge of a busy engine is a KEYGEN or a RND step, and both go by the control registers. -/
theorem sequencingIsDataIndependent : Obligations.SequencingIsDataIndependent := by
  intro s s' t p p' hbusy hr hr' hf hc ho h
  have hsame : SameControl s' s := ⟨hf, hc, ho⟩
  rw [clockEdge_notIdle p s hr hbusy] at h
  rcases edgeWith_next hold s t h with ⟨hidle, -⟩ | ⟨hkey, h0, rfl⟩ | ⟨hrnd, rfl⟩
  · exact absurd hidle hbusy
  · obtain ⟨hf', hc', ho'⟩ := sameControl_keygenStep s' s hsame
    exact ⟨_, clockEdge_keygen p' s' hr' (hf.trans hkey) (hc ▸ h0), hf', hc', ho'⟩
  · obtain ⟨hf', hc', ho'⟩ := sameControl_rndStep s' s hsame
    exact ⟨_, clockEdge_rnd p' s' hr' (hf.trans hrnd), hf', hc', ho'⟩

/-! ## Commands as a whole (43_orchestrator.md R183, R184) -/

/-- A step without reset while a command has edges left: the running operation's own, and n edges more can follow. -/
theorem step_inProgress (n : Nat) (s : State) (hI : ControlInv s) (hn : n + 1 ≤ edgesLeft s)
    (hr : NoResetIn (n + 1) s) :
    step s = .next (seqStep s.nextCycle) ∧ ControlInv (seqStep s.nextCycle) ∧
      n ≤ edgesLeft (seqStep s.nextCycle) ∧ NoResetIn n (seqStep s.nextCycle) := by
  have hf : s.nextCycle.fsm ≠ .idle := busy_of_edgesLeft s (by omega)
  have hI' := controlInv_nextCycle s hI
  obtain ⟨hrst, -⟩ := noResetIn_succ n s s.nextCycle hr rfl
  have hstep : step s = .next (seqStep s.nextCycle) := clockEdge_busy s.ports s.nextCycle hI' hrst hf
  obtain ⟨hleft, -, -⟩ := edgesLeft_seqStep s.nextCycle hf hI'.fsm_legal
  rw [edgesLeft_nextCycle] at hleft
  obtain ⟨-, hrest⟩ := noResetIn_succ n s _ hr (step_inputs s _ hstep)
  exact ⟨hstep, controlInv_seqStep s.nextCycle hI' hf, by omega, hrest⟩

/-- n edges without reset of a command in progress are n of its own steps, with n cycles taken off the list: nothing
else on the ports matters (43_orchestrator.md R186). -/
theorem stepsTo_drain (n : Nat) (s : State) (hI : ControlInv s) (hn : n ≤ edgesLeft s) (hr : NoResetIn n s) :
    StepsTo n s { drain n s with inputs := s.inputs.drop n } := by
  induction n generalizing s with
  | zero => rfl
  | succ n ih =>
    obtain ⟨hstep, hI', hn', hr'⟩ := step_inProgress n s hI hn hr
    have hrest := ih (seqStep s.nextCycle) hI' hn' hr'
    rw [step_inputs s _ hstep, List.drop_tail, seqStep_nextCycle, drain_nextCycle] at hrest
    exact ⟨_, hstep, seqStep_nextCycle s ▸ hrest⟩

theorem inFlight_drain (d : Direction) (K : Key) (B : Block) (n : Nat) (s : State) (h : InFlight d K B s) :
    InFlight d K B (drain n s) := by
  induction n generalizing s with
  | zero => exact h
  | succ n ih => exact ih (seqStep s) (inFlight_seqStep d K B s h)

theorem schedulePoint_keygen (d : Direction) (n : Nat) (hn : n ≤ 30) :
    schedulePoint d n = (.keygen, BitVec.ofNat 5 (n + 1)) :=
  if_pos hn

theorem schedulePoint_rnd_enc (n : Nat) (h30 : 30 < n) (h62 : n ≤ 62) :
    schedulePoint .enc n = (.rnd, BitVec.ofNat 5 (n - 31)) := by
  rw [schedulePoint, if_neg (Nat.not_le.mpr h30), if_pos h62]

theorem schedulePoint_rnd_dec (n : Nat) (h30 : 30 < n) (h62 : n ≤ 62) :
    schedulePoint .dec n = (.rnd, BitVec.ofNat 5 (62 - n)) := by
  rw [schedulePoint, if_neg (Nat.not_le.mpr h30), if_pos h62]

/-- The direction and the edges left of a command say where its sequencing stands (43_orchestrator.md R183). -/
theorem schedulePoint_edgesLeft (s : State) (hI : ControlInv s) (n : Nat) (hn : edgesLeft s + n = 63) :
    (s.fsm, s.ctr) = schedulePoint s.opR n := by
  have hlt : s.ctr.toNat < 32 := s.ctr.isLt
  rw [edgesLeft] at hn
  cases hf : s.fsm <;> simp only [hf] at hn
  case idle =>
    obtain rfl : n = 63 := by omega
    rw [hI.idle_ctr hf]
    rfl
  case keygen =>
    have hpos := counter_toNat_ne_0 s.ctr (hI.keygen_ctr hf)
    have hctr : n + 1 = s.ctr.toNat := by omega
    rw [schedulePoint_keygen _ n (by omega), hctr, BitVec.ofNat_toNat, BitVec.setWidth_eq]
  case rnd =>
    cases ho : s.opR <;> simp only [ho] at hn
    case enc =>
      have hctr : n - 31 = s.ctr.toNat := by omega
      rw [schedulePoint_rnd_enc n (by omega) (by omega), hctr, BitVec.ofNat_toNat, BitVec.setWidth_eq]
    case dec =>
      have hctr : 62 - n = s.ctr.toNat := by omega
      rw [schedulePoint_rnd_dec n (by omega) (by omega), hctr, BitVec.ofNat_toNat, BitVec.setWidth_eq]
  case unused => exact absurd hf hI.fsm_legal

/-- Settles O44: the run is the command's own steps, which keep `InFlight`, and the edges left give the position. -/
theorem registersDuringACommand : Obligations.RegistersDuringACommand := by
  intro d K B s n hf hn hr
  have hI := controlInv_acceptLegal d K B s
  have hleft : edgesLeft (acceptLegal d K B s) = 63 := rfl
  obtain ⟨u, hu, hIu, hleftU⟩ := stepsTo_edgesLeft n _ hI (hleft ▸ hn) hr
  have hdrain := stepsTo_unique n _ _ _ hu (stepsTo_drain n _ hI (hleft ▸ hn) hr)
  have hin : InFlight d K B u := hdrain ▸ inFlight_drain d K B n _ (inFlight_acceptLegal d K B s)
  have hop : u.opR = d := hin.1
  exact ⟨_, u, exec_legalCommand d K B s hf, hu, hop ▸ schedulePoint_edgesLeft u hIu n (hleftU.trans hleft), hin⟩

/-- A completed command determines every register (43_orchestrator.md R182, R184). -/
theorem eq_of_completed (d : Direction) (K : Key) (B : Block) (s : State) (hI : ControlInv s) (hf : s.fsm = .idle)
    (hov : s.outValid = true) (h : InFlight d K B s) :
    s = { st := cipher d B K, kreg := keyRegAfter K 31, rk := keySchedule K, fsm := .idle, ctr := 0#5, opR := d,
          outValid := true, err := false, errCode := 0, inputs := s.inputs } := by
  obtain ⟨hop, hdata⟩ := h
  simp only [hf] at hdata
  obtain ⟨hst, hrk, hkreg⟩ := hdata
  have hctr := hI.idle_ctr hf
  have herr := hI.one_status hov
  have hcode := hI.err_code
  rw [herr] at hcode
  cases s
  dsimp only at hf hst hrk hkreg hctr hop hov herr hcode
  subst hst hrk hkreg hf hctr hop hov herr hcode
  rfl

/-- A legal command accepted in IDLE completes at edge 63 (43_orchestrator.md R170, R171, R183). -/
theorem legalCommand_completes (d : Direction) (K : Key) (B : Block) (s : State) (hf : s.fsm = .idle)
    (hr : NoResetIn 63 s) :
    ∃ t u, exec (legalCommand d K B) s = .next t ∧ StepsTo 63 t u ∧
      u = { st := cipher d B K, kreg := keyRegAfter K 31, rk := keySchedule K, fsm := .idle, ctr := 0#5, opR := d,
            outValid := true, err := false, errCode := 0, inputs := s.inputs.drop 63 } ∧
      u.outputs false = { cmdReady := true, busy := false, outValid := true, blockOut := cipher d B K, err := false,
                          errCode := 0 } := by
  have hI := controlInv_acceptLegal d K B s
  obtain ⟨hIu, hidle⟩ := settle_controlInv_and_idle _ hI
  have hsettle := eq_of_completed d K B _ hIu hidle (settle_outValid _ hI (by simp))
    (inFlight_drain d K B _ _ (inFlight_acceptLegal d K B s))
  have hrun := stepsTo_drain 63 (acceptLegal d K B s) hI le_rfl hr
  have hdrain : drain 63 (acceptLegal d K B s) = settle (acceptLegal d K B s) := rfl
  rw [hdrain, hsettle] at hrun
  exact ⟨_, _, exec_legalCommand d K B s hf, hrun, rfl, rfl⟩

/-- Settles O45, the completed command with direction ENC. -/
theorem encCompletesWithTheCiphertext : Obligations.EncCompletesWithTheCiphertext :=
  fun s K B => legalCommand_completes .enc K B s

/-- Settles O46, the completed command with direction DEC. -/
theorem decCompletesWithThePlaintext : Obligations.DecCompletesWithThePlaintext :=
  fun s K C => legalCommand_completes .dec K C s

/-! ## The idle engine (43_orchestrator.md R176) -/

/-- The coming cycle is quiet, and so are the ones after it. -/
theorem quietIn_succ (n : Nat) (s : State) (h : QuietIn (n + 1) s) :
    (s.ports.rst = false ∧ s.ports.cmdValid = false) ∧ QuietIn n s.nextCycle := by
  unfold QuietIn at h ⊢
  rw [nextCycle_inputs, State.ports]
  cases hs : s.inputs with
  | nil => exact ⟨⟨rfl, rfl⟩, by simp⟩
  | cons p ps =>
    rw [hs, List.take_succ_cons, List.forall_mem_cons] at h
    exact h

theorem stepsTo_idle_quiet (n : Nat) (s : State) (hf : s.fsm = .idle) (hq : QuietIn n s) :
    StepsTo n s { s with inputs := s.inputs.drop n } := by
  induction n generalizing s with
  | zero => rfl
  | succ n ih =>
    obtain ⟨⟨hr, hv⟩, hrest⟩ := quietIn_succ n s hq
    have hrun := ih s.nextCycle hf hrest
    rw [nextCycle_inputs, List.drop_tail] at hrun
    exact ⟨s.nextCycle, clockEdge_idle_quiet s.ports s.nextCycle hr hv hf, hrun⟩

/-- Settles O49: `block_out` is a function of registers that keep their values. -/
theorem idleEngineHoldsItsStateAndResult : Obligations.IdleEngineHoldsItsStateAndResult :=
  fun s n hf hq => ⟨_, stepsTo_idle_quiet n s hf hq, rfl, rfl⟩

/-! ## The transaction machine (43_orchestrator.md R170, R171; 70_reset_and_hazards.md R245) -/

/-- An edge of a command that is not its completing one: the command as if accepted with one edge less to go. -/
theorem edge_start (lat left : Nat) (r : Block) (q : Ports) (hr : q.rst = false) (hleft : 1 < left) :
    (TState.start left r).edge lat q = .start (left - 1) r := by
  simp [TState.edge, TState.start, hr, show ¬left ≤ 1 by omega]

/-- The completing edge presents the result (43_orchestrator.md R182). -/
theorem outputs_edge_start_one (lat : Nat) (r : Block) (q : Ports) (hr : q.rst = false) :
    ((TState.start 1 r).edge lat q).outputs false =
      { cmdReady := true, busy := false, outValid := true, blockOut := r, err := false, errCode := 0 } := by
  simp [TState.edge, TState.start, TState.outputs, hr, Config.errNone]

theorem foldl_edge_start (lat left : Nat) (r : Block) (ps : List Ports) (hr : ∀ q ∈ ps, q.rst = false)
    (hlen : ps.length < left) :
    ps.foldl (fun x q => x.edge lat q) (TState.start left r) = .start (left - ps.length) r := by
  induction ps generalizing left with
  | nil => rfl
  | cons q ps ih =>
    rw [List.forall_mem_cons] at hr
    rw [List.length_cons] at hlen
    rw [List.foldl_cons, edge_start lat left r q hr.1 (by omega), ih (left - 1) hr.2 (by omega), List.length_cons,
      Nat.sub_sub, Nat.add_comm]

/-- The accepting edge of a legal command with nothing in progress (43_orchestrator.md R170, R171). -/
theorem edge_legalCommand (lat : Nat) (d : Direction) (K : Key) (B : Block) (t : TState) (p : Ports)
    (ht : t.pending = none) (hr : p.rst = false) (hv : p.cmdValid = true) (hi : p.instr = legalCommand d K B) :
    t.edge lat p = .start lat (cipher d B K) := by
  cases d <;> simp [TState.edge, ht, hr, hv, hi, legalCommand, TState.accept]

/-- Settles O52: the command counts down one edge at a time, and the last edge is the completing one. -/
theorem transactionCompletesAfterLatEdges : Obligations.TransactionCompletesAfterLatEdges := by
  intro lat d K B t p ps hlat ht hr hv hi hps
  rw [edge_legalCommand lat d K B t p ht hr hv hi]
  constructor
  · intro hlen rst
    rw [foldl_edge_start lat lat _ ps hps hlen]
    rfl
  · intro hlen
    rcases List.eq_nil_or_concat' ps with rfl | ⟨qs, q, rfl⟩
    · exact absurd hlen hlat.ne
    · rw [List.length_append, List.length_singleton] at hlen
      rw [List.forall_mem_append, List.forall_mem_singleton] at hps
      rw [List.foldl_concat, foldl_edge_start lat lat _ qs hps.1 (by omega), show lat - qs.length = 1 by omega,
        outputs_edge_start_one lat _ q hps.2]

end Sys2Proof.Machine
end

section
/-! PROOFS. The statements of the family `60_exceptions.md`: ILLEGAL_OP, the one exception of the engine. -/

namespace Sys2Proof.Machine

/-- A reserved command in IDLE raises ILLEGAL_OP (60_exceptions.md R201). -/
theorem exec_reserved (i : Instr) (s : State) (hi : acceptance i = raiseIllegalOp) (hf : s.fsm = .idle) :
    exec i s = .next (raiseIllegalOp s) := by
  rw [exec_eq, edgeWith_idle _ s hf, hi]

/-- Settles O25: both reserved commands raise ILLEGAL_OP, which leaves the engine in IDLE. -/
theorem reservedCommandRaisesIllegalOp : Obligations.ReservedCommandRaisesIllegalOp :=
  fun s K B hf => ⟨exec_reserved (.rsv2 K B) s rfl hf, exec_reserved (.rsv3 K B) s rfl hf,
    cmdReady_idle (raiseIllegalOp s) hf, busy_eq_false (raiseIllegalOp s) hf⟩

/-- ILLEGAL_OP writes fixed values only, so raising it again changes nothing (60_exceptions.md R207). -/
@[simp] theorem raiseIllegalOp_raiseIllegalOp (s : State) : raiseIllegalOp (raiseIllegalOp s) = raiseIllegalOp s := rfl

/-- Settles O26: the first reserved command leaves the engine in IDLE, and raising ILLEGAL_OP is idempotent. -/
theorem secondIllegalOpChangesNothing : Obligations.SecondIllegalOpChangesNothing := by
  intro s t K L B C hf h
  have ht : raiseIllegalOp s = t := by
    rcases h with h | h <;> rwa [exec_reserved _ s rfl hf, Host.Outcome.next.injEq] at h
  subst ht
  have hidle : (raiseIllegalOp s).fsm = .idle := (raiseIllegalOp_fsm s).trans hf
  have hagain (i : Instr) (hi : acceptance i = raiseIllegalOp) :
      exec i (raiseIllegalOp s) = .next (raiseIllegalOp s) := by
    rw [exec_reserved i _ hi hidle, raiseIllegalOp_raiseIllegalOp]
  exact ⟨hagain (.rsv2 L C) rfl, hagain (.rsv3 L C) rfl, raiseIllegalOp_err s, raiseIllegalOp_errCode s⟩

end Sys2Proof.Machine
end

section
/-! PROOFS. The statements of the family `70_reset_and_hazards.md`: the reset edge, alone and during a command. -/

namespace Sys2Proof.Machine

/-! ## The reset edge (70_reset_and_hazards.md R230, R231) -/

/-- Where the coming cycle has `rst = 1`, the step is a reset edge (70_reset_and_hazards.md R230). -/
theorem step_reset (s : State) (p : Ports) (ps : List Ports) (hs : s.inputs = p :: ps) (hr : p.rst = true) :
    step s = .next (resetEdge { s with inputs := ps }) := by
  rw [step_cons s p ps hs, clockEdge_reset p _ hr]

theorem cmdReady_reset (s : State) : s.cmdReady true = false := by simp [State.cmdReady]

/-- Settles O21: the step is a reset edge, and `resetEdge` assigns the listed registers. -/
theorem resetEdgeFromEveryState : Obligations.ResetEdgeFromEveryState :=
  fun s p ps hs hr => ⟨hr.symm ▸ cmdReady_reset s, step_reset s p ps hs hr⟩

/-- A reset edge writes fixed values only, so repeating it changes nothing (70_reset_and_hazards.md R231). -/
@[simp] theorem resetEdge_resetEdge (s : State) : resetEdge (resetEdge s) = resetEdge s := rfl

/-- An idle engine with no result and no error (70_reset_and_hazards.md R231). -/
theorem outputs_resetEdge (s : State) :
    (resetEdge s).outputs false =
      { cmdReady := true, busy := false, outValid := false, blockOut := 0, err := false, errCode := 0 } := by
  rw [State.outputs, cmdReady_idle _ (resetEdge_fsm s), busy_eq_false _ (resetEdge_fsm s),
    blockOut_of_noResult _ (resetEdge_outValid s)]
  rfl

/-- Settles O22: the state after the edge is `resetEdge s`, which a second reset edge leaves as it is. -/
theorem oneResetEdgeIsEnough : Obligations.OneResetEdgeIsEnough := by
  intro s t p hr h
  obtain rfl : resetEdge s = t := by rwa [clockEdge_reset p s hr, Host.Outcome.next.injEq] at h
  have hagain (q : Ports) (hq : q.rst = true) : clockEdge q (resetEdge s) = .next (resetEdge s) := by
    rw [clockEdge_reset q _ hq, resetEdge_resetEdge]
  exact ⟨hagain, controlInv_resetEdge s, outputs_resetEdge s⟩

/-! ## Reset during a command (70_reset_and_hazards.md R232) -/

/-- A reset edge and m quiet edges after it leave the engine as the reset edge alone does, but for the cycles used up. -/
theorem stepsTo_reset_quiet (m : Nat) (s : State) (p : Ports) (ps : List Ports) (hs : s.inputs = p :: ps)
    (hr : p.rst = true) (hq : ∀ q ∈ ps.take m, q.rst = false ∧ q.cmdValid = false) :
    StepsTo (1 + m) s (resetEdge { s with inputs := ps.drop m }) :=
  stepsTo_trans 1 m s _ _ ⟨_, step_reset s p ps hs hr, rfl⟩
    (stepsTo_idle_quiet m (resetEdge { s with inputs := ps }) (resetEdge_fsm _) hq)

/-- Settles O50: before edge 63 the command is in progress, so no result is presented; after the reset edge the engine is
in IDLE without one, and quiet edges leave it there. -/
theorem resetDuringACommandAbortsIt : Obligations.ResetDuringACommandAbortsIt := by
  intro d K B s n m p ps hf hn hnr hs hr hq
  obtain ⟨t, u, ht, hu, hout⟩ := noResultBeforeTheCompletingEdge d K B s n false hf hn hnr
  have htI : t.inputs = s.inputs := by
    rw [exec_legalCommand d K B s hf, Host.Outcome.next.injEq] at ht
    rw [← ht, acceptLegal_inputs]
  have huI : u.inputs = p :: ps := by rw [stepsTo_inputs n t u hu, htI, hs]
  have hov : u.outValid = false := congrArg Outputs.outValid hout
  exact ⟨t, u, _, ht, hu, hov, stepsTo_reset_quiet m u p ps huI hr hq, resetEdge_outValid _,
    blockOut_of_noResult _ (resetEdge_outValid _), cmdReady_idle _ (resetEdge_fsm _)⟩

end Sys2Proof.Machine
end
